-- ==== Sys2Proof/Word.lean ====
section
/-! DEFINITION. The widths of the codec's values: byte lanes, the 4-bit operation code and flag operand, and the
64-bit command and result words (spec/00_scope.md R7, R9, R10). Every value is unsigned. -/

namespace Sys2Proof

/-- A byte: one operand lane, one result lane, one chip register (R7). -/
abbrev Byte := BitVec 8

/-- Four bits: the operation code `OP` and the flag operand `F[3:0]` (R7). -/
abbrev Nibble := BitVec 4

/-- Sixty-four bits: the command word (R60) and the result word (R61). -/
abbrev Word := BitVec 64

end Sys2Proof
end

