-- ==== Sys2Proof/Config.lean ====
section
/-! DEFINITION. The value types at the field interface (spec/10_state.md R36), the open parameters of
spec/00_scope.md R8, and the free values of spec/93_implementation_defined.md. A constant declared `opaque` has no
body: a claim about it holds for every value. -/

namespace Sys2Proof

/-- The clock source of the countdown timer, in the order that gives its 2-bit code (spec/10_state.md R33, D18). -/
inductive ClockSource where
  | micros244
  | millis15_3
  | second1
  | minute1
  deriving DecidableEq, Repr, Inhabited

/-- The frequency of the clock output, in the order that gives its 2-bit code (spec/10_state.md R32, D19). -/
inductive ClkoutFrequency where
  | hz32768
  | hz1024
  | hz32
  | hz1
  deriving DecidableEq, Repr, Inhabited

/-- The seven decimal fields of a date and time, each an 8-bit unsigned operand (R36). -/
structure DateTime where
  seconds : Byte
  minutes : Byte
  hours : Byte
  day : Byte
  weekday : Byte
  month : Byte
  year : Byte
  deriving DecidableEq, Repr, Inhabited

/-- The four decimal alarm fields and the 4-bit enable mask (R36; bit 0 minute … bit 3 weekday, R152). -/
structure AlarmTime where
  mask : Nibble
  minutes : Byte
  hours : Byte
  day : Byte
  weekday : Byte
  deriving DecidableEq, Repr, Inhabited

/-- The timer configuration of a host call (R36). -/
structure TimerConfig where
  enabled : Bool
  repeatMode : Bool
  clockSource : ClockSource
  counter : Byte
  interruptEnable : Bool
  deriving DecidableEq, Repr, Inhabited

/-- The clock-output configuration of a host call (R36). -/
structure ClkoutConfig where
  enabled : Bool
  frequency : ClkoutFrequency
  deriving DecidableEq, Repr, Inhabited

namespace Config

/-- `DEFAULT_DATETIME` (R8, R241): open. -/
opaque defaultDateTime : DateTime

/-- `DEFAULT_CLKOUT_FREQ` (R8, R241): open. -/
opaque defaultClkoutFreq : ClkoutFrequency

/-- `DEFAULT_CLKOUT_EN` (R8, R241): open. -/
opaque defaultClkoutEn : Bool

/-- `CODEC_LATENCY` in cycles (R8, R251): open, and read by no rule. -/
opaque codecLatency : Nat

/-- What the chip register at an address holds at power-up: any value (R231, U10). -/
opaque powerUpByte : Nat → Byte

/-- The stream of bytes the real chip chooses where the spec says "any value" (U1, U6). -/
opaque chipDraw : Nat → Byte

end Config

end Sys2Proof
end

