-- ==== Sys2Proof/Syntax.lean ====
section
/-! DEFINITION. The instructions of the codec: one constructor for each row of spec/opcode_table.json
(spec/30_encoding.md R63), with the operands R64 says it uses. Bits an operation ignores (R68) are no operand. -/

namespace Sys2Proof

/-- A command of the codec. An 8-bit lane is a `Byte`, a 1-bit flag a `Bool`, a 2-bit code a `BitVec 2` (R65). -/
inductive Instr where
  /-- BCD_ENC v (R101). -/
  | bcdEnc (v : Byte)
  /-- BCD_DEC b (R104). -/
  | bcdDec (b : Byte)
  /-- TIME_PACK sec, min, hour, day, wday, month, year (R121). -/
  | timePack (sec min hour day wday month year : Byte)
  /-- TIME_UNPACK b0, …, b6: the bytes of registers 0x02 to 0x08 (R125). -/
  | timeUnpack (b0 b1 b2 b3 b4 b5 b6 : Byte)
  /-- C1_STOP_WR c1, s (R130). -/
  | c1StopWr (c1 : Byte) (s : Bool)
  /-- ALARM_PACK mask, min, hour, day, wday (R151). -/
  | alarmPack (mask : Nibble) (min hour day wday : Byte)
  /-- C2_AIE_WR c2, ie (R154). -/
  | c2AieWr (c2 : Byte) (ie : Bool)
  /-- C2_AF_GET c2 (R156). -/
  | c2AfGet (c2 : Byte)
  /-- C2_AF_CLR c2 (R158). -/
  | c2AfClr (c2 : Byte)
  /-- C2_TMR_CFG c2, repeat, ie (R171). -/
  | c2TmrCfg (c2 : Byte) (rep ie : Bool)
  /-- TCTL_PACK en, src (R174). -/
  | tctlPack (en : Bool) (src : BitVec 2)
  /-- TCNT_PACK count (R176). -/
  | tcntPack (count : Byte)
  /-- C2_TF_GET c2 (R178). -/
  | c2TfGet (c2 : Byte)
  /-- C2_TF_CLR c2 (R180). -/
  | c2TfClr (c2 : Byte)
  /-- CLKOUT_PACK en, freq (R191). -/
  | clkoutPack (en : Bool) (freq : BitVec 2)
  /-- The reserved operation code 0x0, which raises ILLEGAL_OP (R66, R202). -/
  | reserved
  deriving DecidableEq, Repr

end Sys2Proof
end

