-- ==== Sys2Proof/WellFormed.lean ====
section
/-! DEFINITION. Which instructions an assembler can write. The types of the operands already say that each fits its
field (spec/30_encoding.md R65); what is left to check is that the command has a syntax in R71. -/

namespace Sys2Proof

/-- An instruction is well formed when R71 gives it a syntax: every one but the reserved code 0x0 (R66). -/
def Instr.wellFormed : Instr → Bool
  | .bcdEnc _ => true
  | .bcdDec _ => true
  | .timePack _ _ _ _ _ _ _ => true
  | .timeUnpack _ _ _ _ _ _ _ => true
  | .c1StopWr _ _ => true
  | .alarmPack _ _ _ _ _ => true
  | .c2AieWr _ _ => true
  | .c2AfGet _ => true
  | .c2AfClr _ => true
  | .c2TmrCfg _ _ _ => true
  | .tctlPack _ _ => true
  | .tcntPack _ => true
  | .c2TfGet _ => true
  | .c2TfClr _ => true
  | .clkoutPack _ _ => true
  | .reserved => false

end Sys2Proof
end

