-- ==== Sys2Proof/Decode.lean ====
section
/-! DEFINITION. The command word (spec/30_encoding.md R60): its fields, the decoder (R63, R64, R68, R69), the encoder
(R70, R73), the mask of the bits an operation uses (R70), and a word as eight bytes on a byte-serial link
(spec/20_memory.md R45). -/

namespace Sys2Proof

/-! ## Fields of a command word -/

/-- `OP = CW[63:60]` (R60). -/
def opField (cw : Word) : Nibble := cw.extractLsb' 60 4

/-- `F[3:0] = CW[59:56]` (R60). -/
def flagField (cw : Word) : Nibble := cw.extractLsb' 56 4

/-- `A[i] = CW[55-8i : 48-8i]` for `i` in 0..6 (R60). -/
def operandLane (cw : Word) (i : Nat) : Byte := cw.extractLsb' (48 - 8 * i) 8

/-- The flag bit `F[j]`. -/
def flagBit (f : Nibble) (j : Nat) : Bool := f.getLsbD j

/-- The 2-bit code `F[2:1]` (R64: TCTL_PACK and CLKOUT_PACK). -/
def flagCode (f : Nibble) : BitVec 2 := f.extractLsb' 1 2

/-- A command word from its fields (R60, R73). -/
def packCommand (op f : Nibble) (a0 a1 a2 a3 a4 a5 a6 : Byte) : Word :=
  op ++ f ++ a0 ++ a1 ++ a2 ++ a3 ++ a4 ++ a5 ++ a6

/-! ## The operation map -/

/-- The operation code of an instruction (R63). -/
def opcode : Instr → Nibble
  | .reserved => 0x0#4
  | .bcdEnc _ => 0x1#4
  | .bcdDec _ => 0x2#4
  | .timePack _ _ _ _ _ _ _ => 0x3#4
  | .timeUnpack _ _ _ _ _ _ _ => 0x4#4
  | .c1StopWr _ _ => 0x5#4
  | .alarmPack _ _ _ _ _ => 0x6#4
  | .c2AieWr _ _ => 0x7#4
  | .c2AfGet _ => 0x8#4
  | .c2AfClr _ => 0x9#4
  | .c2TmrCfg _ _ _ => 0xA#4
  | .tctlPack _ _ => 0xB#4
  | .tcntPack _ => 0xC#4
  | .c2TfGet _ => 0xD#4
  | .c2TfClr _ => 0xE#4
  | .clkoutPack _ _ => 0xF#4

/-- The instruction of an operation code, a flag operand and seven operand lanes (R63, R64). A field the operation
does not use is dropped (R68). -/
def decodeFields (op f : Nibble) (a0 a1 a2 a3 a4 a5 a6 : Byte) : Instr :=
  match op.toNat with
  | 0x1 => .bcdEnc a0
  | 0x2 => .bcdDec a0
  | 0x3 => .timePack a0 a1 a2 a3 a4 a5 a6
  | 0x4 => .timeUnpack a0 a1 a2 a3 a4 a5 a6
  | 0x5 => .c1StopWr a0 (flagBit f 0)
  | 0x6 => .alarmPack f a0 a1 a2 a3
  | 0x7 => .c2AieWr a0 (flagBit f 0)
  | 0x8 => .c2AfGet a0
  | 0x9 => .c2AfClr a0
  | 0xA => .c2TmrCfg a0 (flagBit f 1) (flagBit f 0)
  | 0xB => .tctlPack (flagBit f 0) (flagCode f)
  | 0xC => .tcntPack a0
  | 0xD => .c2TfGet a0
  | 0xE => .c2TfClr a0
  | 0xF => .clkoutPack (flagBit f 0) (flagCode f)
  | _ => .reserved

/-- Decoding a command word is total: `OP` alone selects the operation (R69). -/
def decode (cw : Word) : Instr :=
  decodeFields (opField cw) (flagField cw) (operandLane cw 0) (operandLane cw 1) (operandLane cw 2)
    (operandLane cw 3) (operandLane cw 4) (operandLane cw 5) (operandLane cw 6)

/-! ## The encoder -/

/-- A flag operand with one flag in `F[0]`. -/
def flag1 (b0 : Bool) : Nibble := 0#3 ++ BitVec.ofBool b0

/-- A flag operand with a flag in `F[1]` and one in `F[0]`. -/
def flag2 (b1 b0 : Bool) : Nibble := 0#2 ++ BitVec.ofBool b1 ++ BitVec.ofBool b0

/-- A flag operand with a 2-bit code in `F[2:1]` and a flag in `F[0]`. -/
def flagCoded (code : BitVec 2) (b0 : Bool) : Nibble := 0#1 ++ code ++ BitVec.ofBool b0

/-- The command word of an instruction; every ignored bit is written as 0 (R70, R73). -/
def encode : Instr → Word
  | .reserved => packCommand 0x0#4 0 0 0 0 0 0 0 0
  | .bcdEnc v => packCommand 0x1#4 0 v 0 0 0 0 0 0
  | .bcdDec b => packCommand 0x2#4 0 b 0 0 0 0 0 0
  | .timePack sec min hour day wday month year => packCommand 0x3#4 0 sec min hour day wday month year
  | .timeUnpack b0 b1 b2 b3 b4 b5 b6 => packCommand 0x4#4 0 b0 b1 b2 b3 b4 b5 b6
  | .c1StopWr c1 s => packCommand 0x5#4 (flag1 s) c1 0 0 0 0 0 0
  | .alarmPack mask min hour day wday => packCommand 0x6#4 mask min hour day wday 0 0 0
  | .c2AieWr c2 ie => packCommand 0x7#4 (flag1 ie) c2 0 0 0 0 0 0
  | .c2AfGet c2 => packCommand 0x8#4 0 c2 0 0 0 0 0 0
  | .c2AfClr c2 => packCommand 0x9#4 0 c2 0 0 0 0 0 0
  | .c2TmrCfg c2 rep ie => packCommand 0xA#4 (flag2 rep ie) c2 0 0 0 0 0 0
  | .tctlPack en src => packCommand 0xB#4 (flagCoded src en) 0 0 0 0 0 0 0
  | .tcntPack count => packCommand 0xC#4 0 count 0 0 0 0 0 0
  | .c2TfGet c2 => packCommand 0xD#4 0 c2 0 0 0 0 0 0
  | .c2TfClr c2 => packCommand 0xE#4 0 c2 0 0 0 0 0 0
  | .clkoutPack en freq => packCommand 0xF#4 (flagCoded freq en) 0 0 0 0 0 0 0

/-- The bits of a command word that its operation reads, `OP` among them: every bit of R70's pattern that is not
`x`. -/
def usedBits (op : Nibble) : Word :=
  match op.toNat with
  | 0x1 => 0xF0FF000000000000#64
  | 0x2 => 0xF0FF000000000000#64
  | 0x3 => 0xF0FFFFFFFFFFFFFF#64
  | 0x4 => 0xF0FFFFFFFFFFFFFF#64
  | 0x5 => 0xF1FF000000000000#64
  | 0x6 => 0xFFFFFFFFFF000000#64
  | 0x7 => 0xF1FF000000000000#64
  | 0x8 => 0xF0FF000000000000#64
  | 0x9 => 0xF0FF000000000000#64
  | 0xA => 0xF3FF000000000000#64
  | 0xB => 0xF700000000000000#64
  | 0xC => 0xF0FF000000000000#64
  | 0xD => 0xF0FF000000000000#64
  | 0xE => 0xF0FF000000000000#64
  | 0xF => 0xF700000000000000#64
  | _ => 0xF000000000000000#64

/-! ## A word as bytes, and as the opcode table numbers it -/

/-- Why a byte string is no command word: it holds fewer or more than the eight bytes of the one format (R62). -/
inductive DecodeError where
  | tooShort (n : Nat)
  | tooLong (n : Nat)
  deriving DecidableEq, Repr

/-- Eight bytes as a word, bits 63:56 first (R45). -/
def wordOfBytes (b0 b1 b2 b3 b4 b5 b6 b7 : Byte) : Word :=
  b0 ++ b1 ++ b2 ++ b3 ++ b4 ++ b5 ++ b6 ++ b7

/-- A word as eight bytes, bits 63:56 first (R45). -/
def bytesOfWord (w : Word) : List Byte :=
  [w.extractLsb' 56 8, w.extractLsb' 48 8, w.extractLsb' 40 8, w.extractLsb' 32 8, w.extractLsb' 24 8,
    w.extractLsb' 16 8, w.extractLsb' 8 8, w.extractLsb' 0 8]

/-- Decoding a byte string: eight bytes are one command word, any other length is rejected by name. -/
def decodeBytes (bs : List Byte) : Except DecodeError Instr :=
  match bs with
  | [b0, b1, b2, b3, b4, b5, b6, b7] => .ok (decode (wordOfBytes b0 b1 b2 b3 b4 b5 b6 b7))
  | _ => if bs.length < 8 then .error (.tooShort bs.length) else .error (.tooLong bs.length)

/-- The bytes of an instruction in the order they are sent. -/
def encodeBytes (i : Instr) : List Byte := bytesOfWord (encode i)

/-- The instruction decoded from an opcode-table word: `nbits` bits of `w`, bit 0 the least significant bit of the
one 64-bit word, every higher bit 0. The word goes to the decoder as its eight bytes. -/
def decodeTableWord (nbits w : Nat) : Option Instr :=
  if nbits ≤ 64 then (decodeBytes (bytesOfWord (BitVec.ofNat 64 (w % 2 ^ nbits)))).toOption else none

end Sys2Proof
end

