-- ==== Sys2Proof/Machine/State.lean ====
section
/-! DEFINITION. The state as plain data. The codec holds none (spec/10_state.md R20, R21): State is the two words of
its interface (R22), the chip's register space the bytes belong to (spec/20_memory.md R41, R42), and the controller's
coming steps and trace (spec/70_reset_and_hazards.md R233, section 3). -/

namespace Sys2Proof.Machine

/-- The exceptions of the codec (spec/60_exceptions.md R200). They are values of the result word, not stops. -/
inductive CodecException where
  /-- TIME_UNPACK saw the voltage-low bit (R201). -/
  | clockIntegrity
  /-- The operation code is reserved (R202). -/
  | illegalOp
  deriving DecidableEq, Repr

/-- Who answers the controller's transactions. -/
inductive Peer where
  /-- The "simulated register store" of spec/95_test_vectors.md L3: a read returns the last byte written. -/
  | simulatedStore
  /-- The chip, of which spec/93_implementation_defined.md leaves U1 and U6 at "any value". -/
  | realChip
  deriving DecidableEq, Repr

/-- The condition of the bus (spec/93_implementation_defined.md U11, U12). -/
inductive BusCondition where
  | answering
  /-- A read is never answered (R249, U11). -/
  | silent
  /-- A transaction fails (R204, U12). -/
  | failing
  deriving DecidableEq, Repr

/-- The host operations of spec/70_reset_and_hazards.md R234 to R240. -/
inductive HostOp where
  | setDateTime (d : DateTime)
  | getDateTime
  | setAlarm (a : AlarmTime) (interruptEnable : Bool)
  | getAlarmFlag
  | clearAlarmFlag
  | setTimer (t : TimerConfig)
  | getTimerFlag
  | clearTimerFlag
  | setClkoutFrequency (c : ClkoutConfig)
  deriving DecidableEq, Repr

/-- What a host operation gives its caller (R235, R237, R239). -/
inductive HostReturn where
  | done
  | flag (b : Bool)
  /-- The seven fields of `getDateTime`; the year is `RFLAG * 256 + R[6]` (R235, R127). -/
  | dateTime (seconds minutes hours day weekday month : Byte) (year : BitVec 9)
  /-- The error arm carries no field (R201, R247). -/
  | clockIntegrityError
  deriving DecidableEq, Repr

/-- A byte the controller uses: a literal of the host call, byte `i` of the latest RD, or lane `i` of the result of
the EX that is `back` evaluations ago (R233: `b[i]`, `r.R[i]`). -/
inductive Operand where
  | lit (b : Byte)
  | read (i : Nat)
  | result (back i : Nat)
  deriving DecidableEq, Repr

/-- One coming step of the controller, or a labelled step of the chip or the bus (R233; L3 P3 step 10). -/
inductive ControllerAction where
  /-- A host operation begins. -/
  | start (op : HostOp)
  /-- `RD(addr, count)`. -/
  | rd (addr count : Nat)
  /-- `EX(cmd)`: the command word with these fields; lanes left out are 0. -/
  | ex (op f : Nibble) (lanes : List Operand)
  /-- `WR(addr, b0, …, bk)`. -/
  | wr (addr : Nat) (data : List Operand)
  /-- The host operation in progress returns to its caller. -/
  | finish
  /-- The chip changes the bits of a register that are its own (R35, U13). -/
  | chipSets (addr : Nat) (value : Byte)
  /-- The bus changes its condition (U11, U12). -/
  | busBecomes (c : BusCondition)
  deriving DecidableEq, Repr

/-- One entry of the controller's trace. -/
inductive BusEvent where
  | began (op : HostOp)
  | didRead (addr : Nat) (bytes : List Byte)
  | evaluated (cw rw : Word)
  | wrote (addr : Nat) (bytes : List Byte)
  | ended
  deriving DecidableEq, Repr

/-- The faults. Each is a fault of the controller or of the bus, never of the codec; each stops where the spec gives
no further behaviour, which is safe. -/
inductive Fault where
  /-- Raised by a controller's EX of `OP = 0x0` (R202, U4). Safe. -/
  | illegalCommandIssued
  /-- Raised by RD, WR and a chip step at an address above 0x0F (R41). Safe. -/
  | noSuchRegister
  /-- Raised by WR and the end of a host operation: the stop-bit bracket is broken (R242, U2). Safe. -/
  | stopBracketBroken
  /-- Raised by WR and the end of a host operation: the alarm order is broken (R243). Safe. -/
  | alarmOrderBroken
  /-- Raised by WR in `setTimer`: the timer order is broken (R244). Safe. -/
  | timerOrderBroken
  /-- Raised by EX: the control byte was not read for this host operation (R245). Safe. -/
  | staleControlByte
  /-- Raised by EX and WR: an operand is a lane of a result whose STATUS is not 0 (R247). Safe. -/
  | erroredResultUsed
  /-- Raised by the start of a host operation while another is in progress (R248). Safe. -/
  | operationsInterleaved
  /-- Raised by RD on a silent bus: the controller is stuck (R249, U11). Safe. -/
  | unansweredRead
  /-- Raised by RD and WR on a failing bus, and by WR on a silent one (R204, U12; log entry 8). Safe. -/
  | busTransportError
  deriving DecidableEq, Repr

/-- The refusals: the model gives no meaning. -/
inductive Refusal where
  /-- An instruction whose meaning is not modelled; raised by an arm of `exec`, by no arm of this model. Safe. -/
  | notModelled (mnemonic : String)
  /-- Raised by EX, WR and `finish`: the agenda names a byte the controller does not hold, or a getter ends without the
  evaluation it returns (log entry 19). Safe. -/
  | operandNotHeld
  /-- Raised by `finish` with no host operation in progress (log entry 19). Safe. -/
  | noOperationInProgress
  deriving DecidableEq, Repr

/-- The chip's register space: the bytes written since power-up, addresses strictly rising. A register that is not
listed holds its power-up byte. -/
abbrev Memory := List Host.Cell

/-- The state of the codec's interface, the chip and the controller. -/
structure State where
  /-- The command word driven at the codec's input (R22, R60). -/
  command : Word
  /-- The result word the codec gave (R22, R61). -/
  result : Word
  /-- The chip's registers 0x00 to 0x0F (R42). -/
  registers : Memory
  /-- The simulated register store or the real chip. -/
  peer : Peer
  /-- The condition of the bus. -/
  bus : BusCondition
  /-- The model's own: which element of `Config.chipDraw` is drawn next. -/
  draws : Nat
  /-- The steps still to come; empty when nothing but the word at the input stands before the codec. -/
  agenda : List ControllerAction
  /-- The controller's trace, newest first. -/
  trace : List BusEvent
  /-- What the last host operation gave its caller. -/
  returned : Option HostReturn
  deriving DecidableEq, Repr

/-- The state after reset. The codec has nothing to reset (R37, R230): its result word is its function of the command
word, here the all-zero word of an undriven bus (R63; log entries 1 and 2). No register is listed (R231; log entry 5);
the other fields' values are the log's (entries 4, 6, 7, 8, 20). -/
def State.reset : State where
  command := 0x0000000000000000#64
  result := 0x8000000000000000#64
  registers := []
  peer := .realChip
  bus := .answering
  draws := 0
  agenda := []
  trace := []
  returned := none

end Sys2Proof.Machine
end

