-- ==== Sys2Proof/Machine/Fields.lean ====
section
/-! DEFINITION. The chip's register addresses (spec/20_memory.md R42), the named bits of its registers
(spec/10_state.md R25 to R34), the code tables (R32, R33), the valid field ranges (spec/00_scope.md R14) and the bytes
that are valid encodings (R27 to R31). -/

namespace Sys2Proof.Machine

/-! ## Addresses (R42) -/

abbrev addrControl1 : Nat := 0x00
abbrev addrControl2 : Nat := 0x01
abbrev addrSeconds : Nat := 0x02
abbrev addrMinutes : Nat := 0x03
abbrev addrHours : Nat := 0x04
abbrev addrDay : Nat := 0x05
abbrev addrWeekday : Nat := 0x06
abbrev addrMonth : Nat := 0x07
abbrev addrYears : Nat := 0x08
abbrev addrAlarmMinute : Nat := 0x09
abbrev addrAlarmHour : Nat := 0x0A
abbrev addrAlarmDay : Nat := 0x0B
abbrev addrAlarmWeekday : Nat := 0x0C
abbrev addrClkout : Nat := 0x0D
abbrev addrTimerControl : Nat := 0x0E
abbrev addrTimer : Nat := 0x0F

/-- The register space holds sixteen registers (R41, R50). -/
abbrev registerCount : Nat := 16

/-- The time block is 0x02 to 0x08 (R42, R43). -/
def inTimeBlock (addr : Nat) : Bool := decide (addrSeconds ≤ addr) && decide (addr ≤ addrYears)

/-- The alarm block is 0x09 to 0x0C (R42, R43). -/
def inAlarmBlock (addr : Nat) : Bool := decide (addrAlarmMinute ≤ addr) && decide (addr ≤ addrAlarmWeekday)

/-! ## Named bits -/

/-- STOP, bit 5 of control1 (R25). -/
def stopBit (c1 : Byte) : Bool := c1.getLsbD 5

/-- TIE, bit 0 of control2 (R26). -/
def tieBit (c2 : Byte) : Bool := c2.getLsbD 0

/-- AIE, bit 1 of control2 (R26). -/
def aieBit (c2 : Byte) : Bool := c2.getLsbD 1

/-- TF, bit 2 of control2 (R26). -/
def tfBit (c2 : Byte) : Bool := c2.getLsbD 2

/-- AF, bit 3 of control2 (R26). -/
def afBit (c2 : Byte) : Bool := c2.getLsbD 3

/-- TI/TP, bit 4 of control2: the repeat-mode bit (R26, R172). -/
def titpBit (c2 : Byte) : Bool := c2.getLsbD 4

/-- VL, bit 7 of the seconds register (R27). -/
def voltageLowBit (seconds : Byte) : Bool := seconds.getLsbD 7

/-- C, bit 7 of the month register: the century flag (R29). -/
def centuryBit (month : Byte) : Bool := month.getLsbD 7

/-- The disable bit, bit 7 of an alarm register (R31). -/
def alarmDisabledBit (alarm : Byte) : Bool := alarm.getLsbD 7

/-- FE, bit 7 of the clkout-frequency register (R32). -/
def clkoutEnableBit (clkout : Byte) : Bool := clkout.getLsbD 7

/-- TE, bit 7 of the timer-control register (R33). -/
def timerEnableBit (tctl : Byte) : Bool := tctl.getLsbD 7

/-- The chip's clock runs or is halted for an update, by STOP (R131). -/
inductive ClockRun where
  | running
  | haltedForUpdate
  deriving DecidableEq, Repr

/-- The time state machine's state is the stop bit of control1 (R131). -/
def clockRun (c1 : Byte) : ClockRun := if stopBit c1 then .haltedForUpdate else .running

/-! ## Code tables -/

/-- The 2-bit clock-source code (R33). -/
def clockSourceCode : ClockSource → BitVec 2
  | .micros244 => 0b00#2
  | .millis15_3 => 0b01#2
  | .second1 => 0b10#2
  | .minute1 => 0b11#2

/-- The clock source of a timer-control byte, bits 1:0 (R33). -/
def clockSourceOf (tctl : Byte) : ClockSource :=
  match (tctl.extractLsb' 0 2).toNat with
  | 0 => .micros244
  | 1 => .millis15_3
  | 2 => .second1
  | _ => .minute1

/-- The 2-bit clkout frequency code (R32). -/
def frequencyCode : ClkoutFrequency → BitVec 2
  | .hz32768 => 0b00#2
  | .hz1024 => 0b01#2
  | .hz32 => 0b10#2
  | .hz1 => 0b11#2

/-- The frequency of a clkout byte, bits 1:0 (R32). -/
def frequencyOf (clkout : Byte) : ClkoutFrequency :=
  match (clkout.extractLsb' 0 2).toNat with
  | 0 => .hz32768
  | 1 => .hz1024
  | 2 => .hz32
  | _ => .hz1

/-- The frequency in hertz (R32). -/
def frequencyHertz : ClkoutFrequency → Nat
  | .hz32768 => 32768
  | .hz1024 => 1024
  | .hz32 => 32
  | .hz1 => 1

/-! ## Valid values and valid encodings -/

/-- Every field of a date and time is in the range the data model gives it (R14). -/
def validDateTime (d : DateTime) : Bool :=
  decide (d.seconds.toNat ≤ 59) && decide (d.minutes.toNat ≤ 59) && decide (d.hours.toNat ≤ 23) &&
  decide (1 ≤ d.day.toNat) && decide (d.day.toNat ≤ 31) && decide (d.weekday.toNat ≤ 6) &&
  decide (1 ≤ d.month.toNat) && decide (d.month.toNat ≤ 12) && decide (d.year.toNat ≤ 199)

/-- Both nibbles are decimal digits. -/
def isBcd (b : Byte) : Bool := decide (b.toNat / 16 ≤ 9) && decide (b.toNat % 16 ≤ 9)

/-- A packed BCD byte between two packed BCD bounds. -/
def bcdBetween (lo hi : Nat) (b : Byte) : Bool := isBcd b && decide (lo ≤ b.toNat) && decide (b.toNat ≤ hi)

/-- A byte is a valid encoding of its register's field, the century flag aside (R27 to R30); an alarm register also
takes the sentinel 0x80 (R31, R150). The control, clkout and timer registers take every byte (R25, R26, R32 to R34).
DESIGN CHOICE (log entry 23): the byte alone is judged, so what `enc` gives an out-of-range value counts as valid where
it is the byte of a valid one (R101, R123: seconds 160 as 0x00, month 81 as 0x81). -/
def validRegisterByte (addr : Nat) (b : Byte) : Bool :=
  match addr with
  | 0x02 => bcdBetween 0x00 0x59 b
  | 0x03 => bcdBetween 0x00 0x59 b
  | 0x04 => bcdBetween 0x00 0x23 b
  | 0x05 => bcdBetween 0x01 0x31 b
  | 0x06 => bcdBetween 0x00 0x06 b
  | 0x07 => bcdBetween 0x01 0x12 (b &&& 0x7F#8)
  | 0x08 => isBcd b
  | 0x09 => b == 0x80#8 || bcdBetween 0x00 0x59 b
  | 0x0A => b == 0x80#8 || bcdBetween 0x00 0x23 b
  | 0x0B => b == 0x80#8 || bcdBetween 0x01 0x31 b
  | 0x0C => b == 0x80#8 || bcdBetween 0x00 0x06 b
  | _ => true

/-! ## Whose bit it is (R35) -/

/-- The bits of a register no field and no name uses, of which no source says who sets them (N4, R26). DEDUCED (log
entry 25): a time field uses the bits its valid encodings use (R27 to R30). -/
def unnamedBits (addr : Nat) : Byte :=
  match addr with
  | 0x00 => 0xDF#8
  | 0x01 => 0xE0#8
  | 0x03 => 0x80#8
  | 0x04 => 0xC0#8
  | 0x05 => 0xC0#8
  | 0x06 => 0xF8#8
  | 0x07 => 0x60#8
  | 0x0D => 0x7C#8
  | 0x0E => 0x7C#8
  | _ => 0x00#8

/-- The bits in which a read of the chip gives any value: those of minutes, hours, day, weekday and month that no field
uses (U7), and bits 6:2 of clkout and timer-control (N4). A control byte is passed through whole: its unnamed bits are
exact (U5), and the chip keeps them (R241). The choice between N4 and U5 is log entry 25. -/
def freeReadBits (addr : Nat) : Byte :=
  match addr with
  | 0x00 => 0x00#8
  | 0x01 => 0x00#8
  | a => unnamedBits a

/-- The flags the chip sets: AF and TF in control2, VL in seconds (R35). -/
def chipFlagBits (addr : Nat) : Byte :=
  match addr with
  | 0x01 => 0x0C#8
  | 0x02 => 0x80#8
  | _ => 0x00#8

/-- The bits that count: the digits of a time register (R27 to R30), neither a flag nor an unnamed bit, and the countdown
value (R34). -/
def countedBits (addr : Nat) : Byte :=
  match addr with
  | 0x02 => 0x7F#8
  | 0x03 => 0x7F#8
  | 0x04 => 0x3F#8
  | 0x05 => 0x3F#8
  | 0x06 => 0x07#8
  | 0x07 => 0x1F#8
  | 0x08 => 0xFF#8
  | 0x0F => 0xFF#8
  | _ => 0x00#8

/-- A byte with the bits of a mask taken from another byte. -/
def takeBits (mask old new : Byte) : Byte := (old &&& ~~~mask) ||| (new &&& mask)

end Sys2Proof.Machine
end

