-- ==== Sys2Proof/Machine/Flags.lean ====
section
/-! DEFINITION. The output flags of the codec, STATUS and RFLAG (spec/10_state.md R23), and where the result word
holds them (spec/30_encoding.md R61). -/

namespace Sys2Proof.Machine

/-- `STATUS` 0: OK (R200). -/
def statusOk : BitVec 2 := 0#2

/-- The status code of an exception (R200): 1 CLOCK_INTEGRITY, 2 ILLEGAL_OP. -/
def exceptionStatus : CodecException → BitVec 2
  | .clockIntegrity => 1#2
  | .illegalOp => 2#2

/-- `STATUS = RW[63:62]` (R61). -/
def resultStatus (rw : Word) : BitVec 2 := rw.extractLsb' 62 2

/-- `RFLAG = RW[61]` (R61). -/
def resultFlag (rw : Word) : Bool := rw.getLsbD 61

/-- `RW[60:56]`, always 0 (R61, R67). -/
def resultZeroField (rw : Word) : BitVec 5 := rw.extractLsb' 56 5

end Sys2Proof.Machine
end

