-- ==== Sys2Proof/Machine/Operands.lean ====
section
/-! DEFINITION. The lanes of a result word (spec/30_encoding.md R61), and the bytes a controller's action names
(spec/70_reset_and_hazards.md R233), read from its trace. -/

namespace Sys2Proof.Machine

/-- `R[i] = RW[55-8i : 48-8i]` (R61). -/
def resultLane (rw : Word) (i : Nat) : Byte := rw.extractLsb' (48 - 8 * i) 8

/-- The part of the trace since the latest host operation began. -/
def sinceBegan : List BusEvent → List BusEvent
  | [] => []
  | .began _ :: _ => []
  | e :: past => e :: sinceBegan past

/-- The bytes of the latest read. -/
def latestRead : List BusEvent → Option (List Byte)
  | [] => none
  | .didRead _ bytes :: _ => some bytes
  | _ :: past => latestRead past

/-- The result words of the evaluations, newest first. -/
def resultsOf : List BusEvent → List Word
  | [] => []
  | .evaluated _ rw :: past => rw :: resultsOf past
  | _ :: past => resultsOf past

/-- The result of the latest evaluation with an operation code. -/
def latestResult (op : Nibble) : List BusEvent → Option Word
  | [] => none
  | .evaluated cw rw :: past => if opField cw == op then some rw else latestResult op past
  | _ :: past => latestResult op past

/-- A TIME_UNPACK of the trace raised CLOCK_INTEGRITY (R201). -/
def unpackRaised (trace : List BusEvent) : Bool :=
  (resultsOf trace).any (fun rw => resultStatus rw == exceptionStatus .clockIntegrity)

/-- The byte an operand names, if the controller holds it: bytes and results of the host operation's own trace. -/
def operandByte (trace : List BusEvent) : Operand → Option Byte
  | .lit b => some b
  | .read i => (latestRead (sinceBegan trace)).bind (fun bytes => bytes[i]?)
  | .result back i => if i < 7 then (resultsOf (sinceBegan trace))[back]?.map (fun rw => resultLane rw i) else none

/-- The bytes of a list of operands, if the controller holds them all. -/
def operandBytes (trace : List BusEvent) : List Operand → Option (List Byte)
  | [] => some []
  | o :: os =>
    match operandByte trace o, operandBytes trace os with
    | some b, some bs => some (b :: bs)
    | _, _ => none

/-- The operand is a lane of a result whose STATUS is not OK, which is no field (R247). -/
def operandErrored (trace : List BusEvent) : Operand → Bool
  | .lit _ => false
  | .read _ => false
  | .result back _ =>
    match (resultsOf (sinceBegan trace))[back]? with
    | some rw => resultStatus rw != statusOk
    | none => false

end Sys2Proof.Machine
end

