-- ==== Sys2Proof/Machine/Ops.lean ====
section
/-! DEFINITION. The shared operations: building a result word and completing a command (spec/30_encoding.md R61,
R67), raising an exception (spec/00_scope.md R12, spec/60_exceptions.md R207), the chip's register space
(spec/20_memory.md R41, R42), and loading a command word at the codec's input. There is no return from an exception
(R208): the next command word is evaluated as if none had happened. -/

namespace Sys2Proof.Machine

/-! ## The result word -/

/-- The seven result lanes. A lane an operation does not write is 0 (R67). -/
structure Lanes where
  r0 : Byte := 0#8
  r1 : Byte := 0#8
  r2 : Byte := 0#8
  r3 : Byte := 0#8
  r4 : Byte := 0#8
  r5 : Byte := 0#8
  r6 : Byte := 0#8
  deriving DecidableEq, Repr

/-- The result word: STATUS, RFLAG, five zero bits, `R[0]` to `R[6]` (R61). -/
def packResult (status : BitVec 2) (rflag : Bool) (l : Lanes) : Word :=
  status ++ BitVec.ofBool rflag ++ 0#5 ++ l.r0 ++ l.r1 ++ l.r2 ++ l.r3 ++ l.r4 ++ l.r5 ++ l.r6

/-- An operation completes: STATUS 0, the flag and the lanes as its rule writes them, nothing else changed (R20,
R49). -/
def complete (rflag : Bool) (l : Lanes) (s : State) : Host.Outcome State Fault Refusal :=
  .next { s with result := packResult statusOk rflag l }

/-- `raise`: STATUS is the exception's code, RFLAG and every lane are 0, and the evaluation ends (R12). Nothing is
saved, no mode changes and control goes nowhere (R207). -/
def raiseException (e : CodecException) (s : State) : Host.Outcome State Fault Refusal :=
  .next { s with result := packResult (exceptionStatus e) false {} }

/-! ## The chip's register space -/

/-- The byte listed for an address: the last one written or changed since power-up. -/
def Memory.read : Memory → Nat → Option Byte
  | [], _ => none
  | (k, b) :: rest, a => if a = k then some b else if a < k then none else Memory.read rest a

/-- Lists a byte for an address and keeps the addresses strictly rising. -/
def Memory.write : Memory → Nat → Byte → Memory
  | [], a, v => [(a, v)]
  | (k, b) :: rest, a, v =>
    if a = k then (a, v) :: rest
    else if a < k then (a, v) :: (k, b) :: rest
    else (k, b) :: Memory.write rest a v

/-- Addresses rise strictly, starting at or above a bound, and all lie in the register space. -/
def Memory.wfFrom : Nat → Memory → Bool
  | _, [] => true
  | lo, (k, _) :: rest => decide (lo ≤ k) && decide (k < registerCount) && Memory.wfFrom (k + 1) rest

/-- The canonical form: addresses strictly rising, all in 0x00 to 0x0F. An unlisted address reads as no byte, so no
entry can equal what an unlisted address reads as. -/
def Memory.wf (m : Memory) : Bool := Memory.wfFrom 0 m

/-- The byte a chip register holds: the listed one, else its power-up byte (R231, U10). -/
def registerByte (s : State) (a : Nat) : Byte := (s.registers.read a).getD (Config.powerUpByte a)

/-- What a read gives of a register that holds a byte. The simulated store gives the byte (L3); the real chip gives
any value in its free bits (U7, N4; log entry 25). -/
def readByte (p : Peer) (a : Nat) (held draw : Byte) : Byte :=
  match p with
  | .simulatedStore => held
  | .realChip => takeBits (freeReadBits a) held draw

/-- What a read gives of `count` registers from an address upward, the first with free value `d`; each byte uses up
one free value, whether or not it shows (R41, R233). -/
def readBytes (s : State) (a d : Nat) : Nat → List Byte
  | 0 => []
  | n + 1 => readByte s.peer a (registerByte s a) (Config.chipDraw d) :: readBytes s (a + 1) (d + 1) n

/-- What the real chip holds after a write. AF and TF after a write of control2 and VL after a write of seconds are
any value (U6, N11), and so is a time or alarm register after a byte that encodes no valid value (U1). DEDUCED (log
entry 7): every other bit is held as written. DESIGN CHOICE (log entry 23): so is the byte of an out-of-range value
that is also the byte of a valid one (R101, R123). What a later read gives of it is `readByte`. -/
def realChipByte (a : Nat) (b draw : Byte) : Byte :=
  if validRegisterByte a b then takeBits (chipFlagBits a) b draw else draw

/-- What the peer holds after a write: the byte itself in the simulated store (L3). -/
def landedByte (p : Peer) (a : Nat) (b draw : Byte) : Byte :=
  match p with
  | .simulatedStore => b
  | .realChip => realChipByte a b draw

/-- The chip takes one byte; each byte uses up one free value, whether or not it shows. -/
def landByte (a : Nat) (b : Byte) (s : State) : State :=
  { s with
    registers := s.registers.write a (landedByte s.peer a b (Config.chipDraw s.draws))
    draws := s.draws + 1 }

/-- A write transaction: the bytes land at ascending addresses, the first at the start address (R41, R43). -/
def landBytes (a : Nat) : List Byte → State → State
  | [], s => s
  | b :: bs, s => landBytes (a + 1) bs (landByte a b s)

/-- A register counts: a time register while the clock runs (R25, R131), the timer while it is enabled (R33). -/
def countsNow (s : State) (a : Nat) : Bool :=
  if inTimeBlock a then clockRun (registerByte s addrControl1) == .running
  else a == addrTimer && timerEnableBit (registerByte s addrTimerControl)

/-- The bits the chip may change on its own (R35, U13; log entry 11): its flags, the counted bits of a register that
counts, and the unnamed bits, of which no source says who sets them (R26). Every other bit is the controller's. -/
def chipOwnBits (s : State) (a : Nat) : Byte :=
  unnamedBits a ||| chipFlagBits a ||| (if countsNow s a then countedBits a else 0x00#8)

/-- The chip changes a register on its own: the bits that are its own take the value's, the controller's stay (R35). -/
def chipChange (a : Nat) (value : Byte) (s : State) : State :=
  { s with registers := s.registers.write a (takeBits (chipOwnBits s a) (registerByte s a) value) }

/-- Every address of a transaction is a register (R41; log entry 9). DESIGN CHOICE (log entry 27): a transaction of no
bytes, of which the spec says nothing, lies in the register space when it starts at 0x00 to 0x10. -/
def inRegisterSpace (a n : Nat) : Bool := decide (a + n ≤ registerCount)

/-! ## Loading a command word -/

/-- The word stands at the codec's input and nothing else is to come. -/
def loadCommand (w : Word) (s : State) : State := { s with command := w, agenda := [] }

end Sys2Proof.Machine
end

