-- ==== Sys2Proof/Machine/Bcd.lean ====
section
/-! DEFINITION. The BCD encoder and decoder (spec/40_bcd_codec.md): BCD_ENC and BCD_DEC. -/

namespace Sys2Proof.Machine

/-- `enc(v) = trunc_8((v / 10) * 16 + (v % 10))` for every byte (R100). -/
def enc (v : Byte) : Byte := BitVec.ofNat 8 ((v.toNat / 10) * 16 + v.toNat % 10)

/-- `dec(b) = (b >> 4) * 10 + (b & 0xF)` as a number, 0 to 165 (R103). -/
def decNat (b : Byte) : Nat := (b.toNat >>> 4) * 10 + (b.toNat &&& 0xF)

/-- `dec(b)` as a byte: 165 fits in 8 bits (R103). -/
def dec (b : Byte) : Byte := BitVec.ofNat 8 (decNat b)

/-- BCD_ENC v (R101). -/
def execBcdEnc (v : Byte) (s : State) : Host.Outcome State Fault Refusal :=
  complete false { r0 := enc v } s

/-- BCD_DEC b (R104). -/
def execBcdDec (b : Byte) (s : State) : Host.Outcome State Fault Refusal :=
  complete false { r0 := dec b } s

end Sys2Proof.Machine
end

