-- ==== Sys2Proof/Machine/AlarmFields.lean ====
section
/-! DEFINITION. The alarm register fields and alarm control bits (spec/42_alarm_fields.md): ALARM_PACK, C2_AIE_WR,
C2_AF_GET, C2_AF_CLR. -/

namespace Sys2Proof.Machine

/-- `alarm_field(k, v)`: the BCD byte of an enabled field, the sentinel 0x80 of a disabled one (R150). -/
def alarmField (k : Bool) (v : Byte) : Byte := if k then enc v else 0x80#8

/-- ALARM_PACK (R151); bit 0 of the mask is the minute, bit 1 the hour, bit 2 the day, bit 3 the weekday (R152). -/
def execAlarmPack (mask : Nibble) (min hour day wday : Byte) (s : State) : Host.Outcome State Fault Refusal :=
  complete false
    { r0 := alarmField (flagBit mask 0) min
      r1 := alarmField (flagBit mask 1) hour
      r2 := alarmField (flagBit mask 2) day
      r3 := alarmField (flagBit mask 3) wday } s

/-- control2 with AIE set or cleared and every other bit as it was (R154). -/
def aieWritten (c2 : Byte) (ie : Bool) : Byte := if ie then c2 ||| 0x02#8 else c2 &&& 0xFD#8

/-- C2_AIE_WR (R154). -/
def execC2AieWr (c2 : Byte) (ie : Bool) (s : State) : Host.Outcome State Fault Refusal :=
  complete false { r0 := aieWritten c2 ie } s

/-- C2_AF_GET: RFLAG is AF, every lane is 0 (R156, R157). -/
def execC2AfGet (c2 : Byte) (s : State) : Host.Outcome State Fault Refusal :=
  complete (afBit c2) {} s

/-- C2_AF_CLR: control2 with AF cleared (R158). -/
def execC2AfClr (c2 : Byte) (s : State) : Host.Outcome State Fault Refusal :=
  complete false { r0 := c2 &&& 0xF7#8 } s

end Sys2Proof.Machine
end

