-- ==== Sys2Proof/Machine/ClkoutFields.lean ====
section
/-! DEFINITION. The clock-output register field (spec/44_clkout_fields.md): CLKOUT_PACK. -/

namespace Sys2Proof.Machine

/-- `clkout(e, q)`: the frequency code, kept when disabled, and the enable bit (R190, R192). -/
def clkoutByte (e : Bool) (q : BitVec 2) : Byte := q.setWidth 8 ||| (if e then 0x80#8 else 0x00#8)

/-- CLKOUT_PACK (R191). -/
def execClkoutPack (en : Bool) (freq : BitVec 2) (s : State) : Host.Outcome State Fault Refusal :=
  complete false { r0 := clkoutByte en freq } s

end Sys2Proof.Machine
end

