-- ==== Sys2Proof/Machine/ReservedOp.lean ====
section
/-! DEFINITION. The reserved operation code 0x0 (spec/30_encoding.md R66, spec/60_exceptions.md R202). -/

namespace Sys2Proof.Machine

/-- The reserved code raises ILLEGAL_OP, whatever `F` and `A` hold (R202). -/
def execReserved (s : State) : Host.Outcome State Fault Refusal := raiseException .illegalOp s

end Sys2Proof.Machine
end

