-- ==== Sys2Proof/Machine/TimeFields.lean ====
section
/-! DEFINITION. The time register fields and the stop bit (spec/41_time_fields.md): TIME_PACK, TIME_UNPACK,
C1_STOP_WR. -/

namespace Sys2Proof.Machine

/-- The year operand carries the century (R120, R122). -/
def hasCentury (year : Byte) : Bool := decide (100 ≤ year.toNat)

/-- The month byte: `enc(month)` with the century flag OR'd into bit 7 (R120, R122). -/
def monthByte (month year : Byte) : Byte := enc month ||| (if hasCentury year then 0x80#8 else 0x00#8)

/-- The years byte: `enc` of the year, less 100 when the century flag is set (R120). -/
def yearByte (year : Byte) : Byte :=
  enc (if hasCentury year then BitVec.ofNat 8 (year.toNat - 100) else year)

/-- `pack_time`: the seven register bytes, seconds first (R120). -/
def packTime (sec min hour day wday month year : Byte) : Lanes where
  r0 := enc sec
  r1 := enc min
  r2 := enc hour
  r3 := enc day
  r4 := enc wday
  r5 := monthByte month year
  r6 := yearByte year

/-- TIME_PACK (R121). -/
def execTimePack (sec min hour day wday month year : Byte) (s : State) : Host.Outcome State Fault Refusal :=
  complete false (packTime sec min hour day wday month year) s

/-- Seconds to month are decoded without bit 7 (R124). -/
def decMasked (b : Byte) : Byte := dec (b &&& 0x7F#8)

/-- The decoded year, 9 bits: `dec` of the unmasked years byte, and 100 more when the century flag is set (R127). -/
def decodedYear (monthReg yearReg : Byte) : BitVec 9 :=
  BitVec.ofNat 9 (decNat yearReg + (if centuryBit monthReg then 100 else 0))

/-- The seven decoded fields; lane 6 holds year bits 7:0 (R125). -/
def unpackTime (b0 b1 b2 b3 b4 b5 b6 : Byte) : Lanes where
  r0 := decMasked b0
  r1 := decMasked b1
  r2 := decMasked b2
  r3 := decMasked b3
  r4 := decMasked b4
  r5 := decMasked b5
  r6 := (decodedYear b5 b6).extractLsb' 0 8

/-- TIME_UNPACK (R125): the voltage-low check comes before every decode (R126); RFLAG is year bit 8 (R127). -/
def execTimeUnpack (b0 b1 b2 b3 b4 b5 b6 : Byte) (s : State) : Host.Outcome State Fault Refusal :=
  if voltageLowBit b0 then raiseException .clockIntegrity s
  else complete ((decodedYear b5 b6).getLsbD 8) (unpackTime b0 b1 b2 b3 b4 b5 b6) s

/-- control1 with the stop bit set or cleared and every other bit as it was (R130). -/
def stopWritten (c1 : Byte) (s : Bool) : Byte := if s then c1 ||| 0x20#8 else c1 &&& 0xDF#8

/-- C1_STOP_WR (R130). -/
def execC1StopWr (c1 : Byte) (b : Bool) (s : State) : Host.Outcome State Fault Refusal :=
  complete false { r0 := stopWritten c1 b } s

end Sys2Proof.Machine
end

