-- ==== Sys2Proof/Machine/TimerFields.lean ====
section
/-! DEFINITION. The timer register fields and timer control bits (spec/43_timer_fields.md): C2_TMR_CFG, TCTL_PACK,
TCNT_PACK, C2_TF_GET, C2_TF_CLR. -/

namespace Sys2Proof.Machine

/-- `timer_c2(c, r, i)`: TI/TP, TF and TIE cleared, then TI/TP and TIE as requested (R170). -/
def timerC2 (c : Byte) (r i : Bool) : Byte :=
  (c &&& 0xEA#8) ||| (if r then 0x10#8 else 0x00#8) ||| (if i then 0x01#8 else 0x00#8)

/-- C2_TMR_CFG (R171). -/
def execC2TmrCfg (c2 : Byte) (rep ie : Bool) (s : State) : Host.Outcome State Fault Refusal :=
  complete false { r0 := timerC2 c2 rep ie } s

/-- `timer_ctl(e, s)`: the enable bit and the clock-source code, or 0x00 when disabled (R173). -/
def timerCtl (e : Bool) (src : BitVec 2) : Byte := if e then 0x80#8 ||| src.setWidth 8 else 0x00#8

/-- TCTL_PACK (R174). -/
def execTctlPack (en : Bool) (src : BitVec 2) (s : State) : Host.Outcome State Fault Refusal :=
  complete false { r0 := timerCtl en src } s

/-- TCNT_PACK: the counter is raw binary (R175, R176). -/
def execTcntPack (count : Byte) (s : State) : Host.Outcome State Fault Refusal :=
  complete false { r0 := count } s

/-- C2_TF_GET: RFLAG is TF, every lane is 0 (R178, R157). -/
def execC2TfGet (c2 : Byte) (s : State) : Host.Outcome State Fault Refusal :=
  complete (tfBit c2) {} s

/-- C2_TF_CLR: control2 with TF cleared (R180). -/
def execC2TfClr (c2 : Byte) (s : State) : Host.Outcome State Fault Refusal :=
  complete false { r0 := c2 &&& 0xFB#8 } s

end Sys2Proof.Machine
end

