-- ==== Sys2Proof/Machine/Dispatch.lean ====
section
/-! DEFINITION. One arm per instruction (spec/30_encoding.md R63). -/

namespace Sys2Proof.Machine

def exec (i : Instr) (s : State) : Host.Outcome State Fault Refusal :=
  match i with
  | .bcdEnc v => Sys2Proof.Machine.execBcdEnc v s
  | .bcdDec b => Sys2Proof.Machine.execBcdDec b s
  | .timePack sec min hour day wday month year => Sys2Proof.Machine.execTimePack sec min hour day wday month year s
  | .timeUnpack b0 b1 b2 b3 b4 b5 b6 => Sys2Proof.Machine.execTimeUnpack b0 b1 b2 b3 b4 b5 b6 s
  | .c1StopWr c1 b => Sys2Proof.Machine.execC1StopWr c1 b s
  | .alarmPack mask min hour day wday => Sys2Proof.Machine.execAlarmPack mask min hour day wday s
  | .c2AieWr c2 ie => Sys2Proof.Machine.execC2AieWr c2 ie s
  | .c2AfGet c2 => Sys2Proof.Machine.execC2AfGet c2 s
  | .c2AfClr c2 => Sys2Proof.Machine.execC2AfClr c2 s
  | .c2TmrCfg c2 rep ie => Sys2Proof.Machine.execC2TmrCfg c2 rep ie s
  | .tctlPack en src => Sys2Proof.Machine.execTctlPack en src s
  | .tcntPack count => Sys2Proof.Machine.execTcntPack count s
  | .c2TfGet c2 => Sys2Proof.Machine.execC2TfGet c2 s
  | .c2TfClr c2 => Sys2Proof.Machine.execC2TfClr c2 s
  | .clkoutPack en freq => Sys2Proof.Machine.execClkoutPack en freq s
  | .reserved => Sys2Proof.Machine.execReserved s

end Sys2Proof.Machine
end

