-- ==== Sys2Proof/Machine/Hazards.lean ====
section
/-! DEFINITION. The hazards the controller must respect (spec/70_reset_and_hazards.md section 3), each a predicate
over the controller's trace; a trace that breaks one is a fault of the controller. -/

namespace Sys2Proof.Machine

/-! ## Reading a trace -/

/-- The host operation in progress. -/
def currentOp : List BusEvent → Option HostOp
  | [] => none
  | .began op :: _ => some op
  | .ended :: _ => none
  | _ :: past => currentOp past

/-- The single-byte writes of one transaction, in ascending address order (R41). -/
def byteWrites (a : Nat) : List Byte → List (Nat × Byte)
  | [] => []
  | b :: bs => (a, b) :: byteWrites (a + 1) bs

/-- The single-byte writes of a trace, newest first. -/
def writesOf : List BusEvent → List (Nat × Byte)
  | [] => []
  | .wrote a bs :: past => (byteWrites a bs).reverse ++ writesOf past
  | _ :: past => writesOf past

/-- The byte last written to an address. -/
def lastWritten (a : Nat) (writes : List (Nat × Byte)) : Option Byte := writes.lookup a

/-- One of the writes went to the address. -/
def wroteTo (a : Nat) (writes : List (Nat × Byte)) : Bool := writes.any (fun w => w.1 == a)

/-- One of the writes went to the time block. -/
def wroteTime (writes : List (Nat × Byte)) : Bool := writes.any (fun w => inTimeBlock w.1)

/-- A check of each new write, in order, against the writes before it, newest first. DEDUCED (log entry 24): the bytes of
one transaction are writes one after another in ascending address order, since they land so (R41, R43). -/
def eachWrite (ok : Nat × Byte → List (Nat × Byte) → Bool) : List (Nat × Byte) → List (Nat × Byte) → Bool
  | [], _ => true
  | w :: ws, past => ok w past && eachWrite ok ws (w :: past)

/-! ## Stop-bit bracket (R242) -/

/-- STOP was last written 1. -/
def stopSet (past : List (Nat × Byte)) : Bool := (lastWritten addrControl1 past).any stopBit

/-- A byte goes to the time block with no write clearing STOP since it was set. -/
def stopHeld (w : Nat × Byte) (past : List (Nat × Byte)) : Bool := !inTimeBlock w.1 || stopSet past

/-- A transaction that touches the time block writes all seven bytes of it. -/
def timeBlockWhole (a : Nat) (bs : List Byte) : Bool :=
  !wroteTime (byteWrites a bs) || (decide (a ≤ addrSeconds) && decide (addrYears < a + bs.length))

/-- The stop-bit bracket of a transaction that touches the time block: STOP was set by an earlier transaction, the first
step of the two-step bracket; no byte of this one clears it before the block; and the block goes whole (R242). -/
def inStopBracket (a : Nat) (bs : List Byte) (past : List (Nat × Byte)) : Bool :=
  (!wroteTime (byteWrites a bs) || stopSet past) && eachWrite stopHeld (byteWrites a bs) past && timeBlockWhole a bs

/-- At the end of a host operation that wrote the time block, STOP has been cleared again. -/
def stopReleased (writes : List (Nat × Byte)) : Bool :=
  !wroteTime writes || (lastWritten addrControl1 writes).any (fun c1 => !stopBit c1)

/-! ## Alarm order (R243) -/

/-- A write of the alarm block comes after a write of control2 with AIE = 0. -/
def alarmInterruptOff (w : Nat × Byte) (past : List (Nat × Byte)) : Bool :=
  !inAlarmBlock w.1 || (lastWritten addrControl2 past).any (fun c2 => !aieBit c2)

/-- The alarm block has been written since the last write of control2. -/
def alarmPending : List (Nat × Byte) → Bool
  | [] => false
  | w :: past => if w.1 = addrControl2 then false else inAlarmBlock w.1 || alarmPending past

/-- At the end of `setAlarm`, control2 was written after the alarm block, with AIE as requested. DESIGN CHOICE (log entry
14): so it must have been when no byte of the alarm block was written, of which R243 says nothing. -/
def alarmRestored (ie : Bool) (writes : List (Nat × Byte)) : Bool :=
  !alarmPending writes && (lastWritten addrControl2 writes).any (fun c2 => aieBit c2 == ie)

/-! ## Timer order (R244) -/

/-- A write of timer-control that enables the timer. -/
def enablesTimer (w : Nat × Byte) : Bool := w.1 == addrTimerControl && timerEnableBit w.2

/-- In `setTimer`, 0x00 goes to timer-control first, the enabling write comes after control2 and the counter, and
nothing comes after it. -/
def timerInOrder (w : Nat × Byte) (past : List (Nat × Byte)) : Bool :=
  if past.isEmpty then w.1 == addrTimerControl && w.2 == 0x00#8
  else !past.any enablesTimer && (!enablesTimer w || (wroteTo addrControl2 past && wroteTo addrTimer past))

/-! ## Fresh control bytes (R245) -/

/-- The register whose byte a control-byte command takes as `A[0]`. -/
def controlAddress (op : Nibble) : Option Nat :=
  match op.toNat with
  | 0x5 => some addrControl1
  | 0x7 => some addrControl2
  | 0x8 => some addrControl2
  | 0x9 => some addrControl2
  | 0xA => some addrControl2
  | 0xD => some addrControl2
  | 0xE => some addrControl2
  | _ => none

/-- A read of the trace gave this byte for this address. -/
def wasRead (a : Nat) (b : Byte) : List BusEvent → Bool
  | [] => false
  | .didRead base bytes :: past =>
    (decide (base ≤ a) && bytes[a - base]? == some b) || wasRead a b past
  | _ :: past => wasRead a b past

/-- The byte the first C2_AIE_WR of a trace gave. -/
def firstAieByte : List BusEvent → Option Byte
  | [] => none
  | .evaluated cw rw :: past =>
    match firstAieByte past with
    | some b => some b
    | none => if opField cw == 0x7#4 then some (resultLane rw 0) else none
  | _ :: past => firstAieByte past

/-- A C2_AIE_WR of a trace took a byte that had not been read before it. -/
def aieTookUnread : List BusEvent → Bool
  | [] => false
  | .evaluated cw _ :: past =>
    (opField cw == 0x7#4 && !wasRead addrControl2 (operandLane cw 0) past) || aieTookUnread past
  | _ :: past => aieTookUnread past

/-- The host operation in progress is `setAlarm`. -/
def inSetAlarm (trace : List BusEvent) : Bool :=
  match currentOp trace with
  | some (.setAlarm _ _) => true
  | _ => false

/-- The one exception of R245: in `setAlarm` the final C2_AIE_WR takes the byte the first one gave. -/
def finalAieTakesFirst (cw : Word) (past : List BusEvent) : Bool :=
  opField cw == 0x7#4 && inSetAlarm past && firstAieByte (sinceBegan past) == some (operandLane cw 0)

/-- The control byte of a command was read for the host operation in progress, or it is the exception of R245. A
C2_AIE_WR that took the exception was the final one: no other follows it in the operation. -/
def controlByteFresh (cw : Word) (past : List BusEvent) : Bool :=
  match controlAddress (opField cw) with
  | none => true
  | some a =>
    (currentOp past).isSome && (wasRead a (operandLane cw 0) (sinceBegan past) || finalAieTakesFirst cw past) &&
      !(opField cw == 0x7#4 && aieTookUnread (sinceBegan past))

/-! ## The first hazard an event runs into -/

/-- The hazard of a write transaction, given the trace before it; the stop-bit bracket is looked at first (log entry 26). -/
def writeHazard (a : Nat) (bs : List Byte) (past : List BusEvent) : Option Fault :=
  if !inStopBracket a bs (writesOf past) then some .stopBracketBroken
  else
    match currentOp past with
    | some (.setAlarm _ _) =>
      if eachWrite alarmInterruptOff (byteWrites a bs) (writesOf (sinceBegan past)) then none
      else some .alarmOrderBroken
    | some (.setTimer _) =>
      if eachWrite timerInOrder (byteWrites a bs) (writesOf (sinceBegan past)) then none
      else some .timerOrderBroken
    | _ => none

/-- The hazard of the end of the host operation in progress; the stop-bit bracket is looked at first (log entry 26). -/
def endHazard (past : List BusEvent) : Option Fault :=
  if !stopReleased (writesOf (sinceBegan past)) then some .stopBracketBroken
  else
    match currentOp past with
    | some (.setAlarm _ ie) =>
      if alarmRestored ie (writesOf (sinceBegan past)) then none else some .alarmOrderBroken
    | _ => none

/-- The first hazard an event runs into, given the trace before it (R202, R242 to R245, R248). -/
def hazardOf (e : BusEvent) (past : List BusEvent) : Option Fault :=
  match e with
  | .began _ => if (currentOp past).isSome then some .operationsInterleaved else none
  | .didRead _ _ => none
  | .evaluated cw _ =>
    if opField cw == 0x0#4 then some .illegalCommandIssued
    else if controlByteFresh cw past then none
    else some .staleControlByte
  | .wrote a bs => writeHazard a bs past
  | .ended => endHazard past

/-- Every event of a trace, against the events before it, runs into no hazard. -/
def traceOk : List BusEvent → Bool
  | [] => true
  | e :: past => (hazardOf e past).isNone && traceOk past

end Sys2Proof.Machine
end

