-- ==== Sys2Proof/Machine/Sequences.lean ====
section
/-! DEFINITION. The controller sequences (spec/70_reset_and_hazards.md R234 to R241): the host operations as lists of
controller actions, in the source's order. -/

namespace Sys2Proof.Machine

/-- A flag operand from its bits `F[3]` to `F[0]`. -/
def flagsOf (f3 f2 f1 f0 : Bool) : Nibble :=
  BitVec.ofBool f3 ++ BitVec.ofBool f2 ++ BitVec.ofBool f1 ++ BitVec.ofBool f0

/-- A flag operand of TCTL_PACK and CLKOUT_PACK: the code in `F[2:1]`, the enable bit in `F[0]` (R64). -/
def codedFlags (code : BitVec 2) (en : Bool) : Nibble := 0#1 ++ code ++ BitVec.ofBool en

/-- `EX(C1_STOP_WR c1, s)` on the byte just read. -/
def exStop (s : Bool) : ControllerAction := .ex 0x5#4 (flagsOf false false false s) [.read 0]

/-- `setDateTime` between its begin and its end (R234). -/
def setDateTimeBody (d : DateTime) : List ControllerAction :=
  [ .rd addrControl1 1,
    exStop true,
    .wr addrControl1 [.result 0 0],
    .ex 0x3#4 0#4 [.lit d.seconds, .lit d.minutes, .lit d.hours, .lit d.day, .lit d.weekday, .lit d.month, .lit d.year],
    .wr addrSeconds
      [.result 0 0, .result 0 1, .result 0 2, .result 0 3, .result 0 4, .result 0 5, .result 0 6],
    .rd addrControl1 1,
    exStop false,
    .wr addrControl1 [.result 0 0] ]

/-- `getDateTime` (R235). -/
def getDateTimeBody : List ControllerAction :=
  [ .rd addrSeconds 7,
    .ex 0x4#4 0#4 [.read 0, .read 1, .read 2, .read 3, .read 4, .read 5, .read 6] ]

/-- `setAlarm` (R236): the last C2_AIE_WR takes the byte the first one gave, one evaluation before ALARM_PACK. -/
def setAlarmBody (a : AlarmTime) (ie : Bool) : List ControllerAction :=
  [ .rd addrControl2 1,
    .ex 0x7#4 (flagsOf false false false false) [.read 0],
    .wr addrControl2 [.result 0 0],
    .ex 0x6#4 a.mask [.lit a.minutes, .lit a.hours, .lit a.day, .lit a.weekday],
    .wr addrAlarmMinute [.result 0 0, .result 0 1, .result 0 2, .result 0 3],
    .ex 0x7#4 (flagsOf false false false ie) [.result 1 0],
    .wr addrControl2 [.result 0 0] ]

/-- `getAlarmFlag` (R237). -/
def getAlarmFlagBody : List ControllerAction := [.rd addrControl2 1, .ex 0x8#4 0#4 [.read 0]]

/-- `clearAlarmFlag` (R237). -/
def clearAlarmFlagBody : List ControllerAction :=
  [.rd addrControl2 1, .ex 0x9#4 0#4 [.read 0], .wr addrControl2 [.result 0 0]]

/-- `setTimer` (R238). -/
def setTimerBody (t : TimerConfig) : List ControllerAction :=
  [ .ex 0xB#4 (codedFlags 0#2 false) [],
    .wr addrTimerControl [.result 0 0],
    .rd addrControl2 1,
    .ex 0xA#4 (flagsOf false false t.repeatMode t.interruptEnable) [.read 0],
    .wr addrControl2 [.result 0 0],
    .ex 0xC#4 0#4 [.lit t.counter],
    .wr addrTimer [.result 0 0] ] ++
  (if t.enabled then
    [ .ex 0xB#4 (codedFlags (clockSourceCode t.clockSource) true) [],
      .wr addrTimerControl [.result 0 0] ]
  else [])

/-- `getTimerFlag` (R239). -/
def getTimerFlagBody : List ControllerAction := [.rd addrControl2 1, .ex 0xD#4 0#4 [.read 0]]

/-- `clearTimerFlag` (R239). -/
def clearTimerFlagBody : List ControllerAction :=
  [.rd addrControl2 1, .ex 0xE#4 0#4 [.read 0], .wr addrControl2 [.result 0 0]]

/-- `setClkoutFrequency` (R240): one write and no read. -/
def setClkoutFrequencyBody (c : ClkoutConfig) : List ControllerAction :=
  [.ex 0xF#4 (codedFlags (frequencyCode c.frequency) c.enabled) [], .wr addrClkout [.result 0 0]]

/-- The actions of a host operation between its begin and its end. -/
def hostOpBody : HostOp → List ControllerAction
  | .setDateTime d => setDateTimeBody d
  | .getDateTime => getDateTimeBody
  | .setAlarm a ie => setAlarmBody a ie
  | .getAlarmFlag => getAlarmFlagBody
  | .clearAlarmFlag => clearAlarmFlagBody
  | .setTimer t => setTimerBody t
  | .getTimerFlag => getTimerFlagBody
  | .clearTimerFlag => clearTimerFlagBody
  | .setClkoutFrequency c => setClkoutFrequencyBody c

/-- A host operation as a whole. -/
def hostOpActions (op : HostOp) : List ControllerAction := .start op :: hostOpBody op ++ [.finish]

/-- The alarm call of initialization: mask 0b0000, every value 0 (R241). -/
def alarmsOff : AlarmTime where
  mask := 0b0000#4
  minutes := 0
  hours := 0
  day := 0
  weekday := 0

/-- The timer call of initialization: `setTimer(0, 0, 0, 0, 0)` (R241, D25). -/
def timerOff : TimerConfig where
  enabled := false
  repeatMode := false
  clockSource := .micros244
  counter := 0
  interruptEnable := false

/-- The host operations of initialization, in the source's order (R241). -/
def initializeOps (supplied : Option DateTime) : List HostOp :=
  [ .setDateTime (supplied.getD Config.defaultDateTime),
    .setAlarm alarmsOff false,
    .setClkoutFrequency ⟨Config.defaultClkoutEn, Config.defaultClkoutFreq⟩,
    .setTimer timerOff ]

/-- Initialization as controller actions (R241). -/
def initializeActions (supplied : Option DateTime) : List ControllerAction :=
  (initializeOps supplied).flatMap hostOpActions

end Sys2Proof.Machine
end

