-- ==== Sys2Proof/Machine/Controller.lean ====
section
/-! DEFINITION. What each action of the agenda does (spec/70_reset_and_hazards.md R233, section 3). The action has
been taken off the agenda already. -/

namespace Sys2Proof.Machine

/-- Records an event, or stops with the hazard it runs into. -/
def record (e : BusEvent) (s : State) : Host.Outcome State Fault Refusal :=
  match hazardOf e s.trace with
  | some f => .fault f
  | none => .next { s with trace := e :: s.trace }

/-- The fields of a TIME_UNPACK result (R235). -/
def dateTimeOf (rw : Word) : HostReturn :=
  .dateTime (resultLane rw 0) (resultLane rw 1) (resultLane rw 2) (resultLane rw 3) (resultLane rw 4)
    (resultLane rw 5) (BitVec.ofBool (resultFlag rw) ++ resultLane rw 6)

/-- What a host operation gives its caller, from its own part of the trace: a getter returns the result of its own
command (R235, R237, R239). Once a TIME_UNPACK of the operation has raised, `getDateTime` gives the error arm, whatever
is evaluated after it (R247). DESIGN CHOICE (log entry 28): a setter or a flag clearer returns done however much of its
sequence was carried out. -/
def hostReturn (op : HostOp) (own : List BusEvent) : Option HostReturn :=
  match op with
  | .setDateTime _ => some .done
  | .getDateTime =>
    if unpackRaised own then some .clockIntegrityError else (latestResult 0x4#4 own).map dateTimeOf
  | .setAlarm _ _ => some .done
  | .getAlarmFlag => (latestResult 0x8#4 own).map (fun rw => .flag (resultFlag rw))
  | .clearAlarmFlag => some .done
  | .setTimer _ => some .done
  | .getTimerFlag => (latestResult 0xD#4 own).map (fun rw => .flag (resultFlag rw))
  | .clearTimerFlag => some .done
  | .setClkoutFrequency _ => some .done

/-- A host operation begins (R248). -/
def actStart (op : HostOp) (s : State) : Host.Outcome State Fault Refusal := record (.began op) s

/-- `RD(addr, count)` (R233). A read the chip never answers is stuck (R249); a failed one ends the run (U12). DESIGN
CHOICE (log entry 26): the bus is looked at before the address. -/
def actRead (addr count : Nat) (s : State) : Host.Outcome State Fault Refusal :=
  match s.bus with
  | .silent => .fault .unansweredRead
  | .failing => .fault .busTransportError
  | .answering =>
    if inRegisterSpace addr count then
      record (.didRead addr (readBytes s addr s.draws count)) { s with draws := s.draws + count }
    else .fault .noSuchRegister

/-- The command word of an EX: lanes left out are 0 (R70). DESIGN CHOICE (log entry 29): an operand past the seventh lane
is dropped. -/
def issuedWord (op f : Nibble) (lanes : List Byte) : Word :=
  packCommand op f (lanes.getD 0 0) (lanes.getD 1 0) (lanes.getD 2 0) (lanes.getD 3 0) (lanes.getD 4 0)
    (lanes.getD 5 0) (lanes.getD 6 0)

/-- The controller drives a command word, the codec evaluates it, and the evaluation enters the trace (R233). -/
def issue (cw : Word) (s : State) : Host.Outcome State Fault Refusal :=
  match hazardOf (.evaluated cw 0) s.trace with
  | some f => .fault f
  | none =>
    match exec (decode cw) { s with command := cw } with
    | .next t => .next { t with trace := .evaluated cw t.result :: t.trace }
    | .fault f => .fault f
    | .refused r => .refused r

/-- The bytes of an action's operands: a lane of an errored result is a fault (R247), a byte the controller does not
hold a refusal. DESIGN CHOICE (log entry 29): every operand an action names counts as used, also one in a lane that its
operation ignores (R68). -/
def withOperands (os : List Operand) (s : State) (k : List Byte → Host.Outcome State Fault Refusal) :
    Host.Outcome State Fault Refusal :=
  if os.any (operandErrored s.trace) then .fault .erroredResultUsed
  else
    match operandBytes s.trace os with
    | some bs => k bs
    | none => .refused .operandNotHeld

/-- `EX(cmd)` (R233). DESIGN CHOICE (log entry 17): the spec gives no order between the faults of one EX, and the operands
are looked at first, so an EX of the reserved code that names an errored or unheld lane stops for the lane. -/
def actEvaluate (op f : Nibble) (lanes : List Operand) (s : State) : Host.Outcome State Fault Refusal :=
  withOperands lanes s (fun bs => issue (issuedWord op f bs) s)

/-- A write transaction of known bytes: its hazards, then the bytes land (R233, R41). DESIGN CHOICE (log entry 26): where
several faults apply, the bus is looked at first, then the addresses, then the hazards. -/
def writeBytes (addr : Nat) (bs : List Byte) (s : State) : Host.Outcome State Fault Refusal :=
  match s.bus with
  | .silent => .fault .busTransportError
  | .failing => .fault .busTransportError
  | .answering =>
    if inRegisterSpace addr bs.length then record (.wrote addr bs) (landBytes addr bs s)
    else .fault .noSuchRegister

/-- `WR(addr, b0, …, bk)` (R233). DESIGN CHOICE (log entry 26): its operands are looked at before anything else. -/
def actWrite (addr : Nat) (data : List Operand) (s : State) : Host.Outcome State Fault Refusal :=
  withOperands data s (fun bs => writeBytes addr bs s)

/-- The host operation in progress returns to its caller (R235, R237, R239). DESIGN CHOICE (log entry 26): the hazards of
its end are looked at before what it returns. -/
def actFinish (s : State) : Host.Outcome State Fault Refusal :=
  match currentOp s.trace with
  | none => .refused .noOperationInProgress
  | some op =>
    match hazardOf .ended s.trace, hostReturn op (sinceBegan s.trace) with
    | some f, _ => .fault f
    | none, some r => .next { s with returned := some r, trace := .ended :: s.trace }
    | none, none => .refused .operandNotHeld

/-- The chip changes a register on its own (R35, U13). -/
def actChipSets (addr : Nat) (value : Byte) (s : State) : Host.Outcome State Fault Refusal :=
  if inRegisterSpace addr 1 then .next (chipChange addr value s)
  else .fault .noSuchRegister

/-- The bus changes its condition (U11, U12). -/
def actBusBecomes (c : BusCondition) (s : State) : Host.Outcome State Fault Refusal :=
  .next { s with bus := c }

/-- One action of the agenda. -/
def act (a : ControllerAction) (s : State) : Host.Outcome State Fault Refusal :=
  match a with
  | .start op => actStart op s
  | .rd addr count => actRead addr count s
  | .ex op f lanes => actEvaluate op f lanes s
  | .wr addr data => actWrite addr data s
  | .finish => actFinish s
  | .chipSets addr value => actChipSets addr value s
  | .busBecomes c => actBusBecomes c s

/-- The codec evaluates the command word that stands at its input. -/
def evaluateInput (s : State) : Host.Outcome State Fault Refusal := exec (decode s.command) s

end Sys2Proof.Machine
end

