-- ==== Sys2Proof/Machine/Step.lean ====
section
/-! DEFINITION. One step of the machine. -/

namespace Sys2Proof.Machine

/-- The next action of the agenda; with an empty agenda, the codec evaluates the word at its input. -/
def step (s : State) : Host.Outcome State Fault Refusal :=
  match s.agenda with
  | [] => evaluateInput s
  | a :: rest => act a { s with agenda := rest }

/-- `s` with an opcode-table word standing at the codec's input and nothing else to come, so that the next step
evaluates it (log entry 4). -/
def State.withFetchWord (s : State) (nbits w : Nat) : State :=
  loadCommand (BitVec.ofNat 64 (w % 2 ^ nbits)) s

end Sys2Proof.Machine
end

