-- ==== Sys2Proof/Machine/Assembler.lean ====
section
/-! DEFINITION. Assembly syntax (spec/30_encoding.md R71), the pseudo-instructions (R72) and the disassembler. -/

namespace Sys2Proof.Machine

/-- The mnemonics of R71 and the pseudo-instructions of R72. -/
inductive Mnemonic where
  | bcdEnc | bcdDec | timePack | timeUnpack | c1StopWr | alarmPack | c2AieWr | c2AfGet | c2AfClr | c2TmrCfg
  | tctlPack | tcntPack | c2TfGet | c2TfClr | clkoutPack
  | c1StopSet | c1StopClr | c2AieSet | c2AieClr | alarmOff | tctlOff | clkoutOff
  deriving DecidableEq, Repr

/-- One command in assembly: a mnemonic and its operands as numbers, not yet checked (R71). -/
structure AsmLine where
  mnemonic : Mnemonic
  operands : List Nat
  deriving DecidableEq, Repr

/-- The widths of the operands of a mnemonic, in order: 8 for a lane, 4 for the mask, 2 for a code, 1 for a flag
(R71, R72). -/
def operandWidths : Mnemonic → List Nat
  | .bcdEnc => [8]
  | .bcdDec => [8]
  | .timePack => [8, 8, 8, 8, 8, 8, 8]
  | .timeUnpack => [8, 8, 8, 8, 8, 8, 8]
  | .c1StopWr => [8, 1]
  | .alarmPack => [4, 8, 8, 8, 8]
  | .c2AieWr => [8, 1]
  | .c2AfGet => [8]
  | .c2AfClr => [8]
  | .c2TmrCfg => [8, 1, 1]
  | .tctlPack => [1, 2]
  | .tcntPack => [8]
  | .c2TfGet => [8]
  | .c2TfClr => [8]
  | .clkoutPack => [1, 2]
  | .c1StopSet => [8]
  | .c1StopClr => [8]
  | .c2AieSet => [8]
  | .c2AieClr => [8]
  | .alarmOff => []
  | .tctlOff => []
  | .clkoutOff => [2]

/-- As many operands as the mnemonic takes, each fitting its field (R71). -/
def fitsWidths : List Nat → List Nat → Bool
  | [], [] => true
  | w :: ws, v :: vs => decide (v < 2 ^ w) && fitsWidths ws vs
  | _, _ => false

/-- The assembler accepts the line. -/
def AsmLine.wellFormed (l : AsmLine) : Bool := fitsWidths (operandWidths l.mnemonic) l.operands

/-- A 1-bit operand. -/
def bitOf (n : Nat) : Bool := n == 1

/-- An 8-bit operand. -/
def laneOf (n : Nat) : Byte := BitVec.ofNat 8 n

/-- A 2-bit operand. -/
def codeOf (n : Nat) : BitVec 2 := BitVec.ofNat 2 n

/-- The instruction of a mnemonic and operands that fit; a pseudo-instruction expands to its base (R72). -/
def assembleFitting (m : Mnemonic) (o : Nat → Nat) : Instr :=
  match m with
  | .bcdEnc => .bcdEnc (laneOf (o 0))
  | .bcdDec => .bcdDec (laneOf (o 0))
  | .timePack => .timePack (laneOf (o 0)) (laneOf (o 1)) (laneOf (o 2)) (laneOf (o 3)) (laneOf (o 4)) (laneOf (o 5)) (laneOf (o 6))
  | .timeUnpack => .timeUnpack (laneOf (o 0)) (laneOf (o 1)) (laneOf (o 2)) (laneOf (o 3)) (laneOf (o 4)) (laneOf (o 5)) (laneOf (o 6))
  | .c1StopWr => .c1StopWr (laneOf (o 0)) (bitOf (o 1))
  | .alarmPack => .alarmPack (BitVec.ofNat 4 (o 0)) (laneOf (o 1)) (laneOf (o 2)) (laneOf (o 3)) (laneOf (o 4))
  | .c2AieWr => .c2AieWr (laneOf (o 0)) (bitOf (o 1))
  | .c2AfGet => .c2AfGet (laneOf (o 0))
  | .c2AfClr => .c2AfClr (laneOf (o 0))
  | .c2TmrCfg => .c2TmrCfg (laneOf (o 0)) (bitOf (o 1)) (bitOf (o 2))
  | .tctlPack => .tctlPack (bitOf (o 0)) (codeOf (o 1))
  | .tcntPack => .tcntPack (laneOf (o 0))
  | .c2TfGet => .c2TfGet (laneOf (o 0))
  | .c2TfClr => .c2TfClr (laneOf (o 0))
  | .clkoutPack => .clkoutPack (bitOf (o 0)) (codeOf (o 1))
  | .c1StopSet => .c1StopWr (laneOf (o 0)) true
  | .c1StopClr => .c1StopWr (laneOf (o 0)) false
  | .c2AieSet => .c2AieWr (laneOf (o 0)) true
  | .c2AieClr => .c2AieWr (laneOf (o 0)) false
  | .alarmOff => .alarmPack 0#4 0#8 0#8 0#8 0#8
  | .tctlOff => .tctlPack false 0#2
  | .clkoutOff => .clkoutPack false (codeOf (o 0))

/-- The assembler refuses a value that does not fit rather than truncating it (R71). -/
def assemble (l : AsmLine) : Option Instr :=
  if l.wellFormed then some (assembleFitting l.mnemonic (fun k => l.operands.getD k 0)) else none

/-- The operand number of a flag. -/
def flagNumber (b : Bool) : Nat := if b then 1 else 0

/-- The disassembler gives the base instruction, never a pseudo-instruction (R72). The reserved code has no syntax. -/
def disassemble : Instr → Option AsmLine
  | .bcdEnc v => some ⟨.bcdEnc, [v.toNat]⟩
  | .bcdDec b => some ⟨.bcdDec, [b.toNat]⟩
  | .timePack a b c d e f g =>
    some ⟨.timePack, [a.toNat, b.toNat, c.toNat, d.toNat, e.toNat, f.toNat, g.toNat]⟩
  | .timeUnpack a b c d e f g =>
    some ⟨.timeUnpack, [a.toNat, b.toNat, c.toNat, d.toNat, e.toNat, f.toNat, g.toNat]⟩
  | .c1StopWr c1 s => some ⟨.c1StopWr, [c1.toNat, flagNumber s]⟩
  | .alarmPack m a b c d => some ⟨.alarmPack, [m.toNat, a.toNat, b.toNat, c.toNat, d.toNat]⟩
  | .c2AieWr c2 ie => some ⟨.c2AieWr, [c2.toNat, flagNumber ie]⟩
  | .c2AfGet c2 => some ⟨.c2AfGet, [c2.toNat]⟩
  | .c2AfClr c2 => some ⟨.c2AfClr, [c2.toNat]⟩
  | .c2TmrCfg c2 rep ie => some ⟨.c2TmrCfg, [c2.toNat, flagNumber rep, flagNumber ie]⟩
  | .tctlPack en src => some ⟨.tctlPack, [flagNumber en, src.toNat]⟩
  | .tcntPack count => some ⟨.tcntPack, [count.toNat]⟩
  | .c2TfGet c2 => some ⟨.c2TfGet, [c2.toNat]⟩
  | .c2TfClr c2 => some ⟨.c2TfClr, [c2.toNat]⟩
  | .clkoutPack en freq => some ⟨.clkoutPack, [flagNumber en, freq.toNat]⟩
  | .reserved => none

/-! ## The text of a line -/

/-- The spelling of a mnemonic (R71, R72). -/
def mnemonicText : Mnemonic → String
  | .bcdEnc => "BCD_ENC"
  | .bcdDec => "BCD_DEC"
  | .timePack => "TIME_PACK"
  | .timeUnpack => "TIME_UNPACK"
  | .c1StopWr => "C1_STOP_WR"
  | .alarmPack => "ALARM_PACK"
  | .c2AieWr => "C2_AIE_WR"
  | .c2AfGet => "C2_AF_GET"
  | .c2AfClr => "C2_AF_CLR"
  | .c2TmrCfg => "C2_TMR_CFG"
  | .tctlPack => "TCTL_PACK"
  | .tcntPack => "TCNT_PACK"
  | .c2TfGet => "C2_TF_GET"
  | .c2TfClr => "C2_TF_CLR"
  | .clkoutPack => "CLKOUT_PACK"
  | .c1StopSet => "C1_STOP_SET"
  | .c1StopClr => "C1_STOP_CLR"
  | .c2AieSet => "C2_AIE_SET"
  | .c2AieClr => "C2_AIE_CLR"
  | .alarmOff => "ALARM_OFF"
  | .tctlOff => "TCTL_OFF"
  | .clkoutOff => "CLKOUT_OFF"

/-- Every mnemonic. -/
def allMnemonics : List Mnemonic :=
  [ .bcdEnc, .bcdDec, .timePack, .timeUnpack, .c1StopWr, .alarmPack, .c2AieWr, .c2AfGet, .c2AfClr, .c2TmrCfg,
    .tctlPack, .tcntPack, .c2TfGet, .c2TfClr, .clkoutPack,
    .c1StopSet, .c1StopClr, .c2AieSet, .c2AieClr, .alarmOff, .tctlOff, .clkoutOff ]

/-- The mnemonic of a spelling. -/
def mnemonicOf (text : List Char) : Option Mnemonic := allMnemonics.find? (fun m => (mnemonicText m).toList == text)

/-- The sixteen digits in ascending order: a digit's value is its place. -/
def digitSpellings : List Char := "0123456789abcdef".toList

/-- The value of a digit, upper or lower case (log entry 18). -/
def digitValue (c : Char) : Option Nat := digitSpellings.findIdx? (· == c.toLower)

/-- The value of digits in a base, after a value already read. -/
def digitsValue (base acc : Nat) : List Char → Option Nat
  | [] => some acc
  | c :: cs =>
    match digitValue c with
    | some d => if d < base then digitsValue base (acc * base + d) cs else none
    | none => none

/-- A number: decimal, hexadecimal with `0x`, binary with `0b` (R71). -/
def numberOf (text : List Char) : Option Nat :=
  match text with
  | [] => none
  | '0' :: 'x' :: c :: cs => digitsValue 16 0 (c :: cs)
  | '0' :: 'b' :: c :: cs => digitsValue 2 0 (c :: cs)
  | cs => digitsValue 10 0 cs

/-- The text without spaces at either end (log entry 18). -/
def trimSpaces (cs : List Char) : List Char :=
  ((cs.dropWhile (· == ' ')).reverse.dropWhile (· == ' ')).reverse

/-- The operands of a line, separated by commas (R71); blank text holds none. -/
def numbersOf (text : List Char) : Option (List Nat) :=
  if (trimSpaces text).isEmpty then some []
  else (text.splitOn ',').mapM (fun piece => numberOf (trimSpaces piece))

/-- One line of assembly: the mnemonic, then its operands separated by commas (R71). -/
def parseLine (text : String) : Option AsmLine :=
  let cs := trimSpaces text.toList
  match mnemonicOf (cs.takeWhile (· != ' ')), numbersOf (cs.dropWhile (· != ' ')) with
  | some m, some ns => some ⟨m, ns⟩
  | _, _ => none

/-- The command word of a line of assembly, refused where it is no line or a value does not fit (R71, R73). -/
def assembleText (text : String) : Option Word := ((parseLine text).bind assemble).map encode

/-- The decimal digits of a number below 1000; every operand is below 256. -/
def decimalDigits (n : Nat) : List Char :=
  let digit (d : Nat) : Char := Char.ofNat ('0'.toNat + d)
  if n < 10 then [digit n]
  else if n < 100 then [digit (n / 10), digit (n % 10)]
  else [digit (n / 100), digit (n / 10 % 10), digit (n % 10)]

/-- The operands of a line as text, separated by commas. -/
def operandsText : List Nat → List Char
  | [] => []
  | [n] => decimalDigits n
  | n :: ns => decimalDigits n ++ [',', ' '] ++ operandsText ns

/-- A line as text: a function of the instruction alone (R72). -/
def lineText (l : AsmLine) : List Char :=
  (mnemonicText l.mnemonic).toList ++ (if l.operands.isEmpty then [] else ' ' :: operandsText l.operands)

/-- The text of a command word, where its instruction has a syntax. -/
def disassembleText (cw : Word) : Option (List Char) := (disassemble (decode cw)).map lineText

end Sys2Proof.Machine
end

