-- ==== Sys2Proof/Safety.lean ====
section
/-! DEFINITION. What counts as a safe state and a safe run: the terms the statements use. -/

namespace Sys2Proof.Safety

open Sys2Proof.Machine

/-- A result word a codec can give: STATUS is not 3 (R200), bits 60:56 are 0 (R67), and an exception leaves RFLAG and
every lane 0 (R201, R202). -/
def resultLegal (rw : Word) : Bool :=
  resultStatus rw != 3#2 && resultZeroField rw == 0#5 &&
    (resultStatus rw == 0#2 || (!resultFlag rw && rw.extractLsb' 0 56 == 0#56))

/-- The invariant: the result word is one a codec can give, the register space is in canonical form, and the
controller's trace breaks no hazard rule (R242 to R245, R248). -/
def inv (s : State) : Bool := resultLegal s.result && Memory.wf s.registers && traceOk s.trace

/-- The fields of a result word: STATUS, RFLAG, the zero field, and the seven lanes, a lane left out of the list being
0 (R61, R67). -/
def ResultIs (rw : Word) (status : BitVec 2) (rflag : Bool) (lanes : List Byte) : Prop :=
  resultStatus rw = status ∧ resultFlag rw = rflag ∧ resultZeroField rw = 0#5 ∧
    ∀ k, k < 7 → resultLane rw k = lanes.getD k 0#8

/-- Nothing but the result word changed: not the command word, no chip register, no field of the controller (R20,
R40, R49). -/
def OnlyResultChanged (s t : State) : Prop := t = { s with result := t.result }

/-- The writes, newest first, hold one of control2 with AIE as requested, and neither control2 nor the alarm block is
written after it (R243). -/
def EndsWithAlarmRestored (ie : Bool) (writes : List (Nat × Byte)) : Prop :=
  ∃ newer c2 older, writes = newer ++ (1, c2) :: older ∧ c2.getLsbD 1 = ie ∧
    ∀ w ∈ newer, w.1 ≠ 1 ∧ ¬ (9 ≤ w.1 ∧ w.1 ≤ 12)

/-- The run reaches a next state after `k` steps: no fault, no refusal. -/
def runsTo (k : Nat) (s t : State) : Prop := Host.Core.run Sys2Proof.core k s = .next t

/-- The single-byte writes before byte `k` of a transaction, newest first, after earlier ones (R41). -/
def writesBefore (a : Nat) (bs : List Byte) (k : Nat) (past : List (Nat × Byte)) : List (Nat × Byte) :=
  (byteWrites a (bs.take k)).reverse ++ past

end Sys2Proof.Safety
end

