-- ==== Sys2Proof/Certificates/Slice0/Obligations.lean ====
section
/-! DEFINITION. The statements for the provers. -/

open Sys2Proof Sys2Proof.Machine Sys2Proof.Safety

/-! ## The command word -/

/-- Decode and encode agree on every instruction, the reserved code among them: no operand bit is dropped
(spec/30_encoding.md R60, R63, R64, R70). -/
def Obligations.DecodeOfEncodeIsTheInstruction : Prop :=
  ∀ i : Instr, decode (encode i) = i

/-- Encoding what a word decodes to gives the word with every ignored bit 0, on every one of the 2^64 words (R68,
R70). -/
def Obligations.EncodeOfDecodeClearsIgnoredBits : Prop :=
  ∀ w : Word, encode (decode w) = w &&& usedBits (opField w)

/-- R68: an operand bit an operation does not use has no effect on the result and is not checked. Two words that
agree on the used bits of R70 decode to one instruction, so every state answers them alike, with a next state. -/
def Obligations.IgnoredBitsHaveNoEffect : Prop :=
  ∀ (w w' : Word) (s : State), w &&& usedBits (opField w) = w' &&& usedBits (opField w) →
    ∃ t, exec (decode w) s = .next t ∧ exec (decode w') s = .next t

/-- R69, which the spec derives from R63, R66 and R68: every command word selects its row by `OP` alone, and gives exactly one result word. -/
def Obligations.DecodingIsTotalByOperationCode : Prop :=
  (∀ w : Word, opcode (decode w) = opField w) ∧
  (∀ (w : Word) (s : State), ∃ r, exec (decode w) s = .next { s with result := r })

/-- The encoding formula of R73, as a number. -/
def Obligations.EncodingFormula : Prop :=
  ∀ (op f : Nibble) (a0 a1 a2 a3 a4 a5 a6 : Byte),
    (packCommand op f a0 a1 a2 a3 a4 a5 a6).toNat =
      op.toNat * 2 ^ 60 + f.toNat * 2 ^ 56 + a0.toNat * 2 ^ 48 + a1.toNat * 2 ^ 40 + a2.toNat * 2 ^ 32 +
        a3.toNat * 2 ^ 24 + a4.toNat * 2 ^ 16 + a5.toNat * 2 ^ 8 + a6.toNat

/-- Words written out from R70's patterns, ignored bits set in some, decode to the instructions they stand for. -/
def Obligations.WrittenWordsDecode : Prop :=
  decode 0b0001_1111_00111011_11111111_11111111_11111111_11111111_11111111_11111111#64 = .bcdEnc 59 ∧
  decode 0b0011_0000_00000000_00000000_00000000_00001111_00000110_00000110_01111100#64 =
    .timePack 0 0 0 15 6 6 124 ∧
  decode 0b0101_1110_00100000_00000000_00000000_00000000_00000000_00000000_00000000#64 = .c1StopWr 0x20 false ∧
  decode 0b0110_0011_00011110_00000111_01100011_00001001_00000000_00000000_00000000#64 =
    .alarmPack 0b0011#4 30 7 99 9 ∧
  decode 0b1010_0010_11100000_00000000_00000000_00000000_00000000_00000000_00000000#64 =
    .c2TmrCfg 0xE0 true false ∧
  decode 0b1111_0110_00000000_00000000_00000000_00000000_00000000_00000000_00000000#64 = .clkoutPack false 3 ∧
  decode 0b0000_1111_11111111_11111111_11111111_11111111_11111111_11111111_11111111#64 = .reserved

/-- A command word on a byte-serial link: bits 63:56 first and bits 7:0 last, the lanes in ascending order (R45). The
rejection of any other number of bytes is the model's (log entry 16). -/
def Obligations.ByteSerialWordDecodes : Prop :=
  (∀ (op f : Nibble) (a0 a1 a2 a3 a4 a5 a6 : Byte),
    decodeBytes [op ++ f, a0, a1, a2, a3, a4, a5, a6] = .ok (decode (packCommand op f a0 a1 a2 a3 a4 a5 a6))) ∧
  (∀ i : Instr, decodeBytes (encodeBytes i) = .ok (decode (encode i))) ∧
  (∀ bs : List Byte, bs.length ≠ 8 → ∃ e, decodeBytes bs = .error e)

/-! ## A step -/

/-- A step runs the decoded instruction: with nothing to come, the step of a state is exec of the instruction its
command word decodes to (R20, R63), and the command word still stands at the input afterwards. A word placed by
withFetchWord is the one that runs. That an empty agenda makes the step an evaluation of the word at the input, and that
withFetchWord empties the agenda, is the model's choice (log entries 3 and 4). -/
def Obligations.StepRunsTheDecodedInstruction : Prop :=
  (∀ (s : State) (i : Instr), s.agenda = [] → decode s.command = i → step s = exec i s) ∧
  (∀ s t : State, s.agenda = [] → step s = .next t → t.command = s.command ∧ t.agenda = []) ∧
  (∀ (s : State) (w : Word),
    step (s.withFetchWord 64 w.toNat) = exec (decode w) { s with command := w, agenda := [] })

/-- R20: the result word is a function of the command word alone: two states that drive one command word answer with
one result word, whatever else they hold. -/
def Obligations.ResultIsAFunctionOfTheCommandWord : Prop :=
  ∀ s s' : State, s.agenda = [] → s'.agenda = [] → s.command = s'.command →
    ∃ r, step s = .next { s with result := r } ∧ step s' = .next { s' with result := r }

/-- The frame of every instruction: the command word, the controller and every byte of the chip's register space are
unchanged; the codec reaches no memory and has no side effect (R40, R49). -/
def Obligations.InstructionsChangeOnlyTheResult : Prop :=
  ∀ (i : Instr) (s t : State), exec i s = .next t →
    OnlyResultChanged s t ∧ (∀ a, t.registers.read a = s.registers.read a) ∧
      (∀ a, registerByte t a = registerByte s a)

/-- STATUS by instruction (R23, R200, R206): 1 exactly for TIME_UNPACK of a seconds byte with bit 7 set, 2 exactly
for the reserved code, 3 never; bits 60:56 are 0 (R67). -/
def Obligations.StatusCodesByInstruction : Prop :=
  ∀ (i : Instr) (s t : State), exec i s = .next t →
    (resultStatus t.result = 1#2 ↔
      ∃ b0 b1 b2 b3 b4 b5 b6, i = .timeUnpack b0 b1 b2 b3 b4 b5 b6 ∧ b0.getLsbD 7 = true) ∧
    (resultStatus t.result = 2#2 ↔ i = .reserved) ∧
    resultStatus t.result ≠ 3#2 ∧ resultZeroField t.result = 0#5

/-- RFLAG is 0 but for C2_AF_GET, C2_TF_GET and TIME_UNPACK (R23). -/
def Obligations.ResultFlagOnlyFromFlagReadersAndUnpack : Prop :=
  ∀ (i : Instr) (s t : State), exec i s = .next t → resultFlag t.result = true →
    (∃ c, i = .c2AfGet c ∧ c.getLsbD 3 = true) ∨ (∃ c, i = .c2TfGet c ∧ c.getLsbD 2 = true) ∨
    (∃ b0 b1 b2 b3 b4 b5 b6, i = .timeUnpack b0 b1 b2 b3 b4 b5 b6 ∧ b0.getLsbD 7 = false ∧
      b5.getLsbD 7 = true ∧ 0xF6 ≤ b6.toNat)

/-- R207, R208: an exception saves nothing and leaves nothing behind: the command after it gives the result it would
have given without it. -/
def Obligations.ExceptionLeavesNothingBehind : Prop :=
  ∀ (i j : Instr) (s t u : State), exec i s = .next t → resultStatus t.result ≠ 0#2 → exec j t = .next u →
    exec j s = .next { s with result := u.result }

/-! ## BCD -/

/-- R100, R101: BCD_ENC. -/
def Obligations.BcdEncEncodesOneValue : Prop :=
  (∀ (v : Byte) (s : State), ∃ t, exec (.bcdEnc v) s = .next t ∧ OnlyResultChanged s t ∧
    ResultIs t.result 0#2 false [BitVec.ofNat 8 (v.toNat / 10 * 16 + v.toNat % 10)]) ∧
  (∀ w : Word, opField w = 0x1#4 → decode w = .bcdEnc (operandLane w 0))

/-- R103, R104: BCD_DEC. The result is at most 165. -/
def Obligations.BcdDecDecodesOneByte : Prop :=
  (∀ (b : Byte) (s : State), ∃ t, exec (.bcdDec b) s = .next t ∧ OnlyResultChanged s t ∧
    ResultIs t.result 0#2 false [BitVec.ofNat 8 (b.toNat / 16 * 10 + b.toNat % 16)] ∧
    (resultLane t.result 0).toNat = b.toNat / 16 * 10 + b.toNat % 16 ∧ (resultLane t.result 0).toNat ≤ 165) ∧
  (∀ w : Word, opField w = 0x2#4 → decode w = .bcdDec (operandLane w 0))

/-- R102, which the spec derives from R100: the encoder is injective on 0 to 159 with every byte of low nibble 0 to 9 as its image, wraps with period
160, and sets bit 7 exactly when the tens digit modulo 16 is 8 or more. -/
def Obligations.EncoderRangeFacts : Prop :=
  (∀ v v' : Byte, v.toNat < 160 → v'.toNat < 160 → enc v = enc v' → v = v') ∧
  (∀ b : Byte, (∃ v : Byte, v.toNat < 160 ∧ enc v = b) ↔ b.toNat % 16 ≤ 9) ∧
  (∀ v : Byte, 160 ≤ v.toNat → enc v = enc (v - 160#8)) ∧
  (∀ v : Byte, (enc v).getLsbD 7 = true ↔ 8 ≤ v.toNat / 10 % 16)

/-- R105, with the wider range the spec derives from R100 and R103: BCD_DEC of what BCD_ENC gives is the value, for 0 to 159, and the value less 160 above. -/
def Obligations.BcdRoundTrip : Prop :=
  ∀ (v : Byte) (s : State), ∃ t u, exec (.bcdEnc v) s = .next t ∧
    exec (.bcdDec (resultLane t.result 0)) t = .next u ∧
    (v.toNat < 160 → resultLane u.result 0 = v) ∧ (160 ≤ v.toNat → resultLane u.result 0 = v - 160#8)

/-- R106, which the spec derives from R100 and R103: BCD_ENC of what BCD_DEC gives is the byte exactly when its low nibble is 0 to 9. -/
def Obligations.BcdReverseRoundTrip : Prop :=
  ∀ (b : Byte) (s : State), ∃ t u, exec (.bcdDec b) s = .next t ∧
    exec (.bcdEnc (resultLane t.result 0)) t = .next u ∧ (resultLane u.result 0 = b ↔ b.toNat % 16 ≤ 9)

/-! ## Time fields -/

/-- R120, R121, R122: TIME_PACK. The month byte is OR'd with the century flag when the year is 100 or more, the years
byte is of the year less 100 then. -/
def Obligations.TimePackPacksTheFields : Prop :=
  (∀ (sec min hour day wday month year : Byte) (s : State),
    ∃ t, exec (.timePack sec min hour day wday month year) s = .next t ∧ OnlyResultChanged s t ∧
      ResultIs t.result 0#2 false
        [enc sec, enc min, enc hour, enc day, enc wday,
          if 100 ≤ year.toNat then enc month ||| 0x80#8 else enc month,
          if 100 ≤ year.toNat then enc (year - 100#8) else enc year]) ∧
  (∀ w : Word, opField w = 0x3#4 → decode w = .timePack (operandLane w 0) (operandLane w 1) (operandLane w 2)
    (operandLane w 3) (operandLane w 4) (operandLane w 5) (operandLane w 6))

/-- R123, which the spec derives from R100, R102 and R120: what TIME_PACK gives for fields out of range, and what
TIME_UNPACK of those bytes reads back. Seconds of 80 to 159 raise CLOCK_INTEGRITY. With bit 7 of the seconds byte clear,
minutes, hours, day, weekday and month of 80 to 159 read back 80 less, and such a month adds 100 to the year. A field of
100 to 159 has a high nibble that is no digit, and one of 160 to 255 wraps. A year of 200 to 255 sets the century flag
over a byte that is no BCD byte; year 100 is 0x00 with the flag, year 99 is 0x99 without it. -/
def Obligations.PackedFieldsOutOfRange : Prop :=
  ∀ (sec min hour day wday month year : Byte) (s : State),
    ∃ t u, exec (.timePack sec min hour day wday month year) s = .next t ∧
      exec (.timeUnpack (resultLane t.result 0) (resultLane t.result 1) (resultLane t.result 2)
        (resultLane t.result 3) (resultLane t.result 4) (resultLane t.result 5) (resultLane t.result 6)) t =
          .next u ∧
      (80 ≤ sec.toNat → sec.toNat < 160 → resultStatus u.result = 1#2) ∧
      ((resultLane t.result 0).getLsbD 7 = false →
        (∀ k v, (k, v) ∈ [(1, min), (2, hour), (3, day), (4, wday), (5, month)] → 80 ≤ v.toNat → v.toNat < 160 →
          resultLane u.result k = v - 80#8) ∧
        (80 ≤ month.toNat → month.toNat < 160 →
          (BitVec.ofBool (resultFlag u.result) ++ resultLane u.result 6).toNat =
              (dec (resultLane t.result 6)).toNat + 100 ∧
            (year.toNat < 100 →
              (BitVec.ofBool (resultFlag u.result) ++ resultLane u.result 6).toNat = year.toNat + 100))) ∧
      (∀ k v, (k, v) ∈ [(0, sec), (1, min), (2, hour), (3, day), (4, wday), (5, month)] →
        (80 ≤ v.toNat → v.toNat < 160 → (resultLane t.result k).getLsbD 7 = true) ∧
        (100 ≤ v.toNat → v.toNat < 160 → 10 ≤ (resultLane t.result k).toNat / 16)) ∧
      (∀ k v, (k, v) ∈ [(0, sec), (1, min), (2, hour), (3, day), (4, wday)] → 160 ≤ v.toNat →
        resultLane t.result k = enc (v - 160#8)) ∧
      (160 ≤ month.toNat → resultLane t.result 5 = monthByte (month - 160#8) year) ∧
      (200 ≤ year.toNat → (resultLane t.result 5).getLsbD 7 = true ∧ resultLane t.result 6 = enc (year - 100#8) ∧
        10 ≤ (resultLane t.result 6).toNat / 16) ∧
      (year = 100#8 → (resultLane t.result 5).getLsbD 7 = true ∧ resultLane t.result 6 = 0x00#8) ∧
      (year = 99#8 → resultLane t.result 5 = enc month ∧ resultLane t.result 6 = 0x99#8)

/-- R124, R125, R127: TIME_UNPACK of a seconds byte with VL clear. The year is the years byte's value, and 100 more
when the century flag is set; bit 8 of it is RFLAG. -/
def Obligations.TimeUnpackDecodesTheFields : Prop :=
  (∀ (b0 b1 b2 b3 b4 b5 b6 : Byte) (s : State), b0.getLsbD 7 = false →
    ∃ (t : State) (y : BitVec 9), exec (.timeUnpack b0 b1 b2 b3 b4 b5 b6) s = .next t ∧ OnlyResultChanged s t ∧
      y.toNat = b6.toNat / 16 * 10 + b6.toNat % 16 + (if b5.getLsbD 7 then 100 else 0) ∧
      ResultIs t.result 0#2 (y.getLsbD 8)
        [dec (b0 &&& 0x7F#8), dec (b1 &&& 0x7F#8), dec (b2 &&& 0x7F#8), dec (b3 &&& 0x7F#8), dec (b4 &&& 0x7F#8),
          dec (b5 &&& 0x7F#8), y.setWidth 8]) ∧
  (∀ w : Word, opField w = 0x4#4 → decode w = .timeUnpack (operandLane w 0) (operandLane w 1) (operandLane w 2)
    (operandLane w 3) (operandLane w 4) (operandLane w 5) (operandLane w 6))

/-- R126, R201: with bit 7 of the seconds byte set, TIME_UNPACK decodes nothing: STATUS 1, RFLAG 0, every lane 0. -/
def Obligations.TimeUnpackRaisesClockIntegrity : Prop :=
  ∀ (b0 b1 b2 b3 b4 b5 b6 : Byte) (s : State), b0.getLsbD 7 = true →
    ∃ t, exec (.timeUnpack b0 b1 b2 b3 b4 b5 b6) s = .next t ∧ OnlyResultChanged s t ∧ ResultIs t.result 1#2 false []

/-- R128, which the spec derives from R120 to R127: for every date and time with every field in its valid range, TIME_UNPACK of the lanes TIME_PACK gave is the
date and time, with STATUS 0 and RFLAG 0. -/
def Obligations.TimeRoundTrip : Prop :=
  ∀ (sec min hour day wday month year : Byte) (s : State),
    sec.toNat ≤ 59 → min.toNat ≤ 59 → hour.toNat ≤ 23 → 1 ≤ day.toNat → day.toNat ≤ 31 → wday.toNat ≤ 6 →
    1 ≤ month.toNat → month.toNat ≤ 12 → year.toNat ≤ 199 →
    ∃ t u, exec (.timePack sec min hour day wday month year) s = .next t ∧
      exec (.timeUnpack (resultLane t.result 0) (resultLane t.result 1) (resultLane t.result 2)
        (resultLane t.result 3) (resultLane t.result 4) (resultLane t.result 5) (resultLane t.result 6)) t =
          .next u ∧
      ResultIs u.result 0#2 false [sec, min, hour, day, wday, month, year]

/-- R130: C1_STOP_WR writes bit 5 of control1 and passes every other bit through. -/
def Obligations.StopBitWrite : Prop :=
  (∀ (c1 : Byte) (b : Bool) (s : State), ∃ t, exec (.c1StopWr c1 b) s = .next t ∧ OnlyResultChanged s t ∧
    ResultIs t.result 0#2 false [resultLane t.result 0] ∧
    ∀ k, k < 8 → (resultLane t.result 0).getLsbD k = if k = 5 then b else c1.getLsbD k) ∧
  (∀ w : Word, opField w = 0x5#4 → decode w = .c1StopWr (operandLane w 0) ((flagField w).getLsbD 0))

/-! ## Alarm fields -/

/-- R150, R151, R152: ALARM_PACK. An enabled field is its BCD byte, a disabled one the sentinel 0x80; mask bit 0 is
the minute, 1 the hour, 2 the day, 3 the weekday. -/
def Obligations.AlarmPackPacksTheFields : Prop :=
  (∀ (k : Nibble) (min hour day wday : Byte) (s : State),
    ∃ t, exec (.alarmPack k min hour day wday) s = .next t ∧ OnlyResultChanged s t ∧
      ResultIs t.result 0#2 false
        [if k.getLsbD 0 then enc min else 0x80#8, if k.getLsbD 1 then enc hour else 0x80#8,
          if k.getLsbD 2 then enc day else 0x80#8, if k.getLsbD 3 then enc wday else 0x80#8]) ∧
  (∀ w : Word, opField w = 0x6#4 → decode w = .alarmPack (flagField w) (operandLane w 0) (operandLane w 1)
    (operandLane w 2) (operandLane w 3))

/-- R153, which the spec derives from R150 and R151: a field not in the mask is the sentinel whatever the value, and each lane depends on its own mask bit and
its own value alone. -/
def Obligations.AlarmFieldIndependence : Prop :=
  ∀ (k k' : Nibble) (a a' : Fin 4 → Byte) (s s' : State),
    ∃ t t', exec (.alarmPack k (a 0) (a 1) (a 2) (a 3)) s = .next t ∧
      exec (.alarmPack k' (a' 0) (a' 1) (a' 2) (a' 3)) s' = .next t' ∧
      ∀ j : Fin 4, (k.getLsbD j = false → resultLane t.result j = 0x80#8) ∧
        (k.getLsbD j = k'.getLsbD j → a j = a' j → resultLane t.result j = resultLane t'.result j)

/-- R154: C2_AIE_WR writes bit 1 of control2 and passes every other bit through, AF and TF as read. -/
def Obligations.AlarmInterruptEnableWrite : Prop :=
  (∀ (c2 : Byte) (ie : Bool) (s : State), ∃ t, exec (.c2AieWr c2 ie) s = .next t ∧ OnlyResultChanged s t ∧
    ResultIs t.result 0#2 false [resultLane t.result 0] ∧
    ∀ k, k < 8 → (resultLane t.result 0).getLsbD k = if k = 1 then ie else c2.getLsbD k) ∧
  (∀ w : Word, opField w = 0x7#4 → decode w = .c2AieWr (operandLane w 0) ((flagField w).getLsbD 0))

/-- R156, R157, R178: the flag readers give AF (bit 3) and TF (bit 2) in RFLAG, and every lane 0. -/
def Obligations.FlagReadersGiveTheirBit : Prop :=
  (∀ (c2 : Byte) (s : State), ∃ t, exec (.c2AfGet c2) s = .next t ∧ OnlyResultChanged s t ∧
    ResultIs t.result 0#2 (c2.getLsbD 3) []) ∧
  (∀ (c2 : Byte) (s : State), ∃ t, exec (.c2TfGet c2) s = .next t ∧ OnlyResultChanged s t ∧
    ResultIs t.result 0#2 (c2.getLsbD 2) []) ∧
  (∀ w : Word, opField w = 0x8#4 → decode w = .c2AfGet (operandLane w 0)) ∧
  (∀ w : Word, opField w = 0xD#4 → decode w = .c2TfGet (operandLane w 0))

/-- R158, R180, and R159, R181, which the spec derives from them: C2_AF_CLR clears bit 3 and C2_TF_CLR bit 2 of control2; every other bit passes through,
so what changes is 0x00 or the flag alone. -/
def Obligations.FlagClearersClearOneBit : Prop :=
  (∀ (c2 : Byte) (s : State), ∃ t, exec (.c2AfClr c2) s = .next t ∧ OnlyResultChanged s t ∧
    ResultIs t.result 0#2 false [resultLane t.result 0] ∧
    (∀ k, k < 8 → (resultLane t.result 0).getLsbD k = if k = 3 then false else c2.getLsbD k) ∧
    (resultLane t.result 0 ^^^ c2 = 0x00#8 ∨ resultLane t.result 0 ^^^ c2 = 0x08#8)) ∧
  (∀ (c2 : Byte) (s : State), ∃ t, exec (.c2TfClr c2) s = .next t ∧ OnlyResultChanged s t ∧
    ResultIs t.result 0#2 false [resultLane t.result 0] ∧
    (∀ k, k < 8 → (resultLane t.result 0).getLsbD k = if k = 2 then false else c2.getLsbD k) ∧
    (resultLane t.result 0 ^^^ c2 = 0x00#8 ∨ resultLane t.result 0 ^^^ c2 = 0x04#8)) ∧
  (∀ w : Word, opField w = 0x9#4 → decode w = .c2AfClr (operandLane w 0)) ∧
  (∀ w : Word, opField w = 0xE#4 → decode w = .c2TfClr (operandLane w 0))

/-! ## Timer and clock output -/

/-- R170, R171: C2_TMR_CFG gives TI/TP (bit 4) the repeat mode and TIE (bit 0) the interrupt enable, clears TF (bit
2), and passes every other bit through. -/
def Obligations.TimerConfigurationWrite : Prop :=
  (∀ (c2 : Byte) (rep ie : Bool) (s : State), ∃ t, exec (.c2TmrCfg c2 rep ie) s = .next t ∧
    OnlyResultChanged s t ∧ ResultIs t.result 0#2 false [resultLane t.result 0] ∧
    ∀ k, k < 8 → (resultLane t.result 0).getLsbD k =
      if k = 4 then rep else if k = 2 then false else if k = 0 then ie else c2.getLsbD k) ∧
  (∀ w : Word, opField w = 0xA#4 →
    decode w = .c2TmrCfg (operandLane w 0) ((flagField w).getLsbD 1) ((flagField w).getLsbD 0))

/-- R173, R174: TCTL_PACK. The disabled byte is 0x00 for every code. -/
def Obligations.TimerControlPack : Prop :=
  (∀ (en : Bool) (src : BitVec 2) (s : State), ∃ t, exec (.tctlPack en src) s = .next t ∧ OnlyResultChanged s t ∧
    ResultIs t.result 0#2 false [if en then BitVec.ofNat 8 (0x80 + src.toNat) else 0x00#8]) ∧
  (∀ w : Word, opField w = 0xB#4 →
    decode w = .tctlPack ((flagField w).getLsbD 0) ((flagField w).extractLsb' 1 2))

/-- R175, R176: TCNT_PACK gives the counter as a raw binary byte. -/
def Obligations.TimerCounterPack : Prop :=
  (∀ (n : Byte) (s : State), ∃ t, exec (.tcntPack n) s = .next t ∧ OnlyResultChanged s t ∧
    ResultIs t.result 0#2 false [n]) ∧
  (∀ w : Word, opField w = 0xC#4 → decode w = .tcntPack (operandLane w 0))

/-- R190, R191, R192: CLKOUT_PACK keeps the frequency code whether or not the output is enabled. -/
def Obligations.ClockOutputPack : Prop :=
  (∀ (en : Bool) (freq : BitVec 2) (s : State), ∃ t, exec (.clkoutPack en freq) s = .next t ∧
    OnlyResultChanged s t ∧
    ResultIs t.result 0#2 false [BitVec.ofNat 8 (freq.toNat + if en then 0x80 else 0x00)]) ∧
  (∀ w : Word, opField w = 0xF#4 →
    decode w = .clkoutPack ((flagField w).getLsbD 0) ((flagField w).extractLsb' 1 2))

/-- R66, R202: the reserved code raises ILLEGAL_OP, whatever the other bits hold: STATUS 2, RFLAG 0, every lane 0. -/
def Obligations.ReservedCodeRaisesIllegalOp : Prop :=
  (∀ s : State, ∃ t, exec .reserved s = .next t ∧ OnlyResultChanged s t ∧ ResultIs t.result 2#2 false []) ∧
  (∀ w : Word, opField w = 0x0#4 ↔ decode w = .reserved)

/-- The set and clear operations are idempotent on their own output: R49 says so, which the spec derives from R20 and
R158; it rests on R130, R154, R158, R171 and R180. -/
def Obligations.ControlByteOperationsAreIdempotent : Prop :=
  (∀ (c : Byte) (b : Bool) (s : State), ∃ t u, exec (.c1StopWr c b) s = .next t ∧
    exec (.c1StopWr (resultLane t.result 0) b) t = .next u ∧ u.result = t.result) ∧
  (∀ (c : Byte) (b : Bool) (s : State), ∃ t u, exec (.c2AieWr c b) s = .next t ∧
    exec (.c2AieWr (resultLane t.result 0) b) t = .next u ∧ u.result = t.result) ∧
  (∀ (c : Byte) (s : State), ∃ t u, exec (.c2AfClr c) s = .next t ∧
    exec (.c2AfClr (resultLane t.result 0)) t = .next u ∧ u.result = t.result) ∧
  (∀ (c : Byte) (s : State), ∃ t u, exec (.c2TfClr c) s = .next t ∧
    exec (.c2TfClr (resultLane t.result 0)) t = .next u ∧ u.result = t.result) ∧
  (∀ (c : Byte) (rep ie : Bool) (s : State), ∃ t u, exec (.c2TmrCfg c rep ie) s = .next t ∧
    exec (.c2TmrCfg (resultLane t.result 0) rep ie) t = .next u ∧ u.result = t.result)

/-- The code tables of R32 and R33 read back from the bytes CLKOUT_PACK and an enabled TCTL_PACK build, and the time
state machine of R131 reads the stop bit C1_STOP_WR wrote. -/
def Obligations.CodesAndStopBitReadBack : Prop :=
  (∀ (en : Bool) (f : ClkoutFrequency) (s : State), ∃ t, exec (.clkoutPack en (frequencyCode f)) s = .next t ∧
    frequencyOf (resultLane t.result 0) = f ∧ clkoutEnableBit (resultLane t.result 0) = en) ∧
  (∀ (c : ClockSource) (s : State), ∃ t, exec (.tctlPack true (clockSourceCode c)) s = .next t ∧
    clockSourceOf (resultLane t.result 0) = c ∧ timerEnableBit (resultLane t.result 0) = true) ∧
  (∀ (c1 : Byte) (b : Bool) (s : State), ∃ t, exec (.c1StopWr c1 b) s = .next t ∧
    clockRun (resultLane t.result 0) = if b then .haltedForUpdate else .running)

/-! ## Assembly -/

/-- R71, R72: the assembler reads back what the disassembler prints, refuses a line whose operands do not fit or whose
number of operands is wrong, and a well-formed instruction has a line. -/
def Obligations.AssemblerReadsBackTheDisassembler : Prop :=
  (∀ (i : Instr) (l : AsmLine), disassemble i = some l → assemble l = some i) ∧
  (∀ i : Instr, i.wellFormed = true ↔ ∃ l, disassemble i = some l) ∧
  (∀ (l : AsmLine) (i : Instr), assemble l = some i →
    i.wellFormed = true ∧ l.operands.length = (operandWidths l.mnemonic).length ∧
      ∀ (k w : Nat), (operandWidths l.mnemonic)[k]? = some w → l.operands.getD k 0 < 2 ^ w)

/-- R72: the seven pseudo-instructions stand for their expansions. -/
def Obligations.PseudoInstructionsExpand : Prop :=
  (∀ c, assemble ⟨.c1StopSet, [c]⟩ = assemble ⟨.c1StopWr, [c, 1]⟩) ∧
  (∀ c, assemble ⟨.c1StopClr, [c]⟩ = assemble ⟨.c1StopWr, [c, 0]⟩) ∧
  (∀ c, assemble ⟨.c2AieSet, [c]⟩ = assemble ⟨.c2AieWr, [c, 1]⟩) ∧
  (∀ c, assemble ⟨.c2AieClr, [c]⟩ = assemble ⟨.c2AieWr, [c, 0]⟩) ∧
  assemble ⟨.alarmOff, []⟩ = assemble ⟨.alarmPack, [0b0000, 0, 0, 0, 0]⟩ ∧
  assemble ⟨.tctlOff, []⟩ = assemble ⟨.tctlPack, [0, 0]⟩ ∧
  (∀ f, assemble ⟨.clkoutOff, [f]⟩ = assemble ⟨.clkoutPack, [0, f]⟩)

/-! ## Reset and the invariant -/

/-- R37, R230: after reset the result word is the codec's function of the command word that is driven, with no
first-evaluation exception: a step changes nothing. R231: no chip register has a known byte. The command word itself
is the model's choice (log entry 1). -/
def Obligations.ResetLeavesNothingToSet : Prop :=
  step State.reset = .next State.reset ∧ (∀ a, State.reset.registers.read a = none) ∧
    (∀ a, registerByte State.reset a = Config.powerUpByte a)

/-- The invariant holds after reset. -/
def Obligations.ResetMeetsTheInvariant : Prop := inv State.reset = true

/-- Every step keeps the invariant: the result word stays one a codec can give, the register space stays in canonical
form inside 0x00 to 0x0F, and the controller's trace stays free of the hazards of R202, R242 to R245 and R248, as the
model reads them: R245 by value and R243, R244 within their operation (log entry 12), R244 by log entry 13, the ends of
R242 and R243 by log entry 14, the bytes of one transaction as writes in order by log entry 24. -/
def Obligations.EveryStepKeepsTheInvariant : Prop :=
  ∀ s t : State, inv s = true → step s = .next t → inv t = true

/-! ## The controller -/

/-- R41, R43, R233: a read gives the bytes of the registers from its start address upward. The simulated store gives
each byte as it is held; the real chip gives the named bits and the whole of control1 and control2 as held (U5) and any
value in its free bits (U7; which bits those are is log entry 25). That a read changes no register is log entry 10, and
that a read past 0x0F faults is log entry 9. What a read of no bytes does is the model's choice (log entry 27): it goes
on when it starts at 0x00 to 0x10 and faults above. -/
def Obligations.ReadGivesRegistersInAscendingOrder : Prop :=
  ∀ (s : State) (a n : Nat) (rest : List ControllerAction), s.bus = .answering → s.agenda = .rd a n :: rest →
    (a + n ≤ 16 → ∃ bytes,
      step s = .next { s with agenda := rest, draws := s.draws + n, trace := .didRead a bytes :: s.trace } ∧
      bytes.length = n ∧ ∀ k, k < n → ∃ b, bytes[k]? = some b ∧
        (s.peer = .simulatedStore → b = registerByte s (a + k)) ∧
        (a + k ≤ 1 → b = registerByte s (a + k)) ∧
        (∀ j, j < 8 → (freeReadBits (a + k)).getLsbD j = false →
          b.getLsbD j = (registerByte s (a + k)).getLsbD j)) ∧
    (16 < a + n → step s = .fault .noSuchRegister)

/-- R41, R43: a write that runs into no hazard lands its bytes at ascending addresses and leaves every other register
alone. In the simulated register store (L3) the register then holds the byte written. On the real chip a register holds
a byte that is a valid encoding as written, but for AF and TF in control2 and VL in seconds, which are any value (U6,
N11); the reading of U1 and U6 is log entry 7, and what counts as valid is log entries 7 and 23. -/
def Obligations.WriteLandsInAscendingOrder : Prop :=
  ∀ (s t : State) (a : Nat) (data : List Operand) (bs : List Byte) (rest : List ControllerAction),
    Memory.wf s.registers = true → s.agenda = .wr a data :: rest → operandBytes s.trace data = some bs →
    step s = .next t →
      t.trace = .wrote a bs :: s.trace ∧ t.agenda = rest ∧ t.command = s.command ∧ t.result = s.result ∧
      (∀ a', a' < a ∨ a + bs.length ≤ a' → t.registers.read a' = s.registers.read a') ∧
      (s.peer = .simulatedStore → ∀ k b, bs[k]? = some b → t.registers.read (a + k) = some b) ∧
      (s.peer = .realChip → ∀ k b, bs[k]? = some b → validRegisterByte (a + k) b = true →
        ∃ v, t.registers.read (a + k) = some v ∧ (a + k ≠ 1 → a + k ≠ 2 → v = b) ∧
          (∀ j, j < 8 → a + k = 1 → j ≠ 2 → j ≠ 3 → v.getLsbD j = b.getLsbD j) ∧
          (∀ j, j < 7 → a + k = 2 → v.getLsbD j = b.getLsbD j))

/-- An EX drives its command word and gives what the codec gives on it, and changes no register (R233, R40). That an
operand past the seventh lane is dropped is the model's choice (log entry 29). -/
def Obligations.EvaluationDrivesTheCodec : Prop :=
  ∀ (s t : State) (op f : Nibble) (lanes : List Operand) (rest : List ControllerAction),
    s.agenda = .ex op f lanes :: rest → step s = .next t →
      ∃ bs, operandBytes s.trace lanes = some bs ∧ t.command = issuedWord op f bs ∧ op ≠ 0x0#4 ∧
        exec (decode t.command) s = .next { s with result := t.result } ∧
        t = { s with
          command := t.command, result := t.result, agenda := rest
          trace := .evaluated t.command t.result :: s.trace }

/-- R202, U4: a controller that issues the reserved code is faulted. -/
def Obligations.ControllerMayNotIssueTheReservedCode : Prop :=
  ∀ (s : State) (f : Nibble) (bs : List Byte) (rest : List ControllerAction), s.agenda = .ex 0x0#4 f (bs.map .lit) :: rest →
    step s = .fault .illegalCommandIssued

/-- R242: a write that touches the time block goes through only as one transaction over all seven bytes, after a write
of control1 with STOP = 1 and with no write clearing STOP since. That STOP must have been set by an earlier transaction,
and that no byte of the transaction itself may clear it before the block, is the reading of log entry 14. A host operation that wrote the
time block ends only with STOP written 0 last, else its end faults; that the end of the operation is where this is checked
is log entry 14. That its end names this fault where another stop applies too is the model's choice (log entry 26). -/
def Obligations.TimeBlockWriteNeedsTheStopBit : Prop :=
  (∀ (s t : State) (a : Nat) (data : List Operand) (bs : List Byte) (rest : List ControllerAction) (k : Nat),
    s.agenda = .wr a data :: rest → operandBytes s.trace data = some bs → step s = .next t →
    k < bs.length → 2 ≤ a + k → a + k ≤ 8 →
      a ≤ 2 ∧ 9 ≤ a + bs.length ∧
      (∃ c1, lastWritten 0 (writesOf s.trace) = some c1 ∧ c1.getLsbD 5 = true) ∧
      ∃ c1, lastWritten 0 (writesBefore a bs k (writesOf s.trace)) = some c1 ∧ c1.getLsbD 5 = true) ∧
  (∀ (s : State) (op : HostOp) (w : Nat × Byte) (rest : List ControllerAction),
    s.agenda = .finish :: rest → currentOp s.trace = some op →
    w ∈ writesOf (sinceBegan s.trace) → 2 ≤ w.1 → w.1 ≤ 8 →
      (∀ t, step s = .next t →
        ∃ c1, lastWritten 0 (writesOf (sinceBegan s.trace)) = some c1 ∧ c1.getLsbD 5 = false) ∧
      ((¬ ∃ c1, lastWritten 0 (writesOf (sinceBegan s.trace)) = some c1 ∧ c1.getLsbD 5 = false) →
        step s = .fault .stopBracketBroken))

/-- R243: in `setAlarm`, a byte goes to the alarm block only after a write of control2 with AIE = 0 in the same
operation; that the bytes of one transaction count one after another is log entry 24. The operation ends only with
control2 written after the alarm block, with AIE as requested, else its end faults; that the end of the operation is where
this is checked, and that it is checked also of an operation that wrote no byte of the alarm block, is log entry 14. -/
def Obligations.AlarmWriteNeedsTheInterruptOff : Prop :=
  (∀ (s t : State) (alarm : AlarmTime) (ie : Bool) (a : Nat) (data : List Operand) (bs : List Byte)
    (rest : List ControllerAction) (k : Nat), currentOp s.trace = some (.setAlarm alarm ie) →
    s.agenda = .wr a data :: rest → operandBytes s.trace data = some bs → step s = .next t →
    k < bs.length → 9 ≤ a + k → a + k ≤ 12 →
      ∃ c2, lastWritten 1 (writesBefore a bs k (writesOf (sinceBegan s.trace))) = some c2 ∧ c2.getLsbD 1 = false) ∧
  (∀ (s : State) (alarm : AlarmTime) (ie : Bool) (rest : List ControllerAction),
    s.agenda = .finish :: rest → currentOp s.trace = some (.setAlarm alarm ie) →
      (∀ t, step s = .next t → EndsWithAlarmRestored ie (writesOf (sinceBegan s.trace))) ∧
      (¬ EndsWithAlarmRestored ie (writesOf (sinceBegan s.trace)) →
        step s = .fault .alarmOrderBroken ∨ step s = .fault .stopBracketBroken))

/-- R244: in `setTimer`, the first byte written is 0x00 to timer-control, the byte that enables the timer comes after
a write of control2 and one of the counter, and nothing is written after it. The exact reading is log entry 13; that the
bytes of one transaction count one after another is log entry 24. -/
def Obligations.TimerWritesKeepTheirOrder : Prop :=
  ∀ (s t : State) (cfg : TimerConfig) (a : Nat) (data : List Operand) (bs : List Byte)
    (rest : List ControllerAction) (k : Nat) (b : Byte) (before : List (Nat × Byte)),
    currentOp s.trace = some (.setTimer cfg) → s.agenda = .wr a data :: rest →
    operandBytes s.trace data = some bs → step s = .next t → bs[k]? = some b →
    before = writesBefore a bs k (writesOf (sinceBegan s.trace)) →
      (before = [] → a + k = 0x0E ∧ b = 0x00#8) ∧
      (∀ v, (0x0E, v) ∈ before → v.getLsbD 7 = false) ∧
      (a + k = 0x0E → b.getLsbD 7 = true → (∃ v, (0x01, v) ∈ before) ∧ (∃ v, (0x0F, v) ∈ before))

/-- R245: a control-byte command goes through only with a byte read for the host operation in progress (by value, log
entry 12). The one exception is in `setAlarm`: a C2_AIE_WR may take the byte the first C2_AIE_WR of the operation gave,
and it is then the final one: a C2_AIE_WR goes through only if every earlier one of the operation took a byte read before
it. -/
def Obligations.ControlBytesAreFresh : Prop :=
  ∀ (s t : State) (op f : Nibble) (lanes : List Operand) (rest : List ControllerAction) (addr : Nat),
    s.agenda = .ex op f lanes :: rest → controlAddress op = some addr → step s = .next t →
      (∃ h, currentOp s.trace = some h) ∧
      ((∃ (base : Nat) (bytes : List Byte), .didRead base bytes ∈ sinceBegan s.trace ∧ base ≤ addr ∧
          bytes[addr - base]? = some (operandLane t.command 0)) ∨
        (op = 0x7#4 ∧ (∃ alarm ie, currentOp s.trace = some (.setAlarm alarm ie)) ∧
          ∃ newer cw rw older, sinceBegan s.trace = newer ++ .evaluated cw rw :: older ∧ opField cw = 0x7#4 ∧
            (∀ cw' rw', .evaluated cw' rw' ∈ older → opField cw' ≠ 0x7#4) ∧
            resultLane rw 0 = operandLane t.command 0)) ∧
      (op = 0x7#4 → ∀ newer cw rw older, sinceBegan s.trace = newer ++ .evaluated cw rw :: older →
        opField cw = 0x7#4 → ∃ (base : Nat) (bytes : List Byte), .didRead base bytes ∈ older ∧ base ≤ 1 ∧
          bytes[1 - base]? = some (operandLane cw 0))

/-- R247: a lane of a result whose STATUS is not 0 is used by no EX and no WR. That such an EX or WR stops for the lane,
whatever other fault applies to it, is the model's choice: log entry 17 for an EX of the reserved code, log entry 26 for
the bus, the addresses and the hazards, log entry 29 for a lane that the operation of an EX ignores. -/
def Obligations.ErroredResultIsNotUsed : Prop :=
  ∀ (s : State) (rw : Word) (back i a : Nat) (op f : Nibble) (before after : List Operand) (rest : List ControllerAction),
    (resultsOf (sinceBegan s.trace))[back]? = some rw → resultStatus rw ≠ 0#2 →
    (s.agenda = .wr a (before ++ .result back i :: after) :: rest ∨
      s.agenda = .ex op f (before ++ .result back i :: after) :: rest) →
      step s = .fault .erroredResultUsed

/-- R248: a host operation does not begin while another is in progress. -/
def Obligations.OperationsDoNotInterleave : Prop :=
  ∀ (s : State) (op op' : HostOp) (rest : List ControllerAction), s.agenda = .start op :: rest →
    (currentOp s.trace = some op' → step s = .fault .operationsInterleaved) ∧
    (currentOp s.trace = none → step s = .next { s with agenda := rest, trace := .began op :: s.trace })

/-- R249, U11, U12: there is no step past a read the device never answers, and none past a failed transaction, a read or
a write. That a write on a silent bus stops as a failed one is the model's choice (log entry 8), and so is it that the bus
is looked at before the addresses and the hazards, so that these stops are named where another applies too (log entry
26). -/
def Obligations.UnansweredReadIsStuck : Prop :=
  (∀ (s : State) (a n : Nat) (rest : List ControllerAction), s.agenda = .rd a n :: rest →
    (s.bus = .silent → ∀ k, Host.Core.run core (k + 1) s = .fault .unansweredRead) ∧
    (s.bus = .failing → ∀ k, Host.Core.run core (k + 1) s = .fault .busTransportError)) ∧
  (∀ (s : State) (a : Nat) (data : List Operand) (bs : List Byte) (rest : List ControllerAction),
    s.agenda = .wr a data :: rest → data.any (operandErrored s.trace) = false →
    operandBytes s.trace data = some bs → s.bus ≠ .answering →
      ∀ k, Host.Core.run core (k + 1) s = .fault .busTransportError)

/-- The bits R35 gives to the controller stay its own. The real chip after a write of control2: TIE, AIE, TI/TP and bits
7:5 are held as written; AF and TF are free (R246, U6; the reading of U6 is log entry 7). A step of the chip's own, with
either peer, changes one register, and in it none of STOP, TIE, AIE, TI/TP, the century flag, the alarm registers, the
enable bits and the codes of clkout and timer-control. While STOP is 1 the digits of the time stand still (R25, R131), and
while the timer is not enabled the counter does (R33). That the chip acts by labelled steps, and the reading of R35, is log
entry 11; that a chip step at an address above 0x0F faults is the model's choice (log entry 9). -/
def Obligations.RealChipKeepsTheControllersControl2Bits : Prop :=
  (∀ (s t : State) (data : List Operand) (b : Byte) (rest : List ControllerAction), s.peer = .realChip →
    s.agenda = .wr 0x01 data :: rest → operandBytes s.trace data = some [b] → step s = .next t →
      ∃ v, t.registers.read 0x01 = some v ∧ ∀ k, k < 8 → k ≠ 2 → k ≠ 3 → v.getLsbD k = b.getLsbD k) ∧
  (∀ (s : State) (a : Nat) (value : Byte) (rest : List ControllerAction), Memory.wf s.registers = true →
    s.agenda = .chipSets a value :: rest →
    (16 ≤ a → step s = .fault .noSuchRegister) ∧
    (a < 16 → ∃ t, step s = .next t ∧ t = { s with agenda := rest, registers := t.registers } ∧
      (∀ r, r ≠ a → registerByte t r = registerByte s r) ∧
      (∀ r j, (r, j) ∈ [(0x00, 5), (0x01, 0), (0x01, 1), (0x01, 4), (0x07, 7), (0x0D, 7), (0x0D, 1), (0x0D, 0),
          (0x0E, 7), (0x0E, 1), (0x0E, 0)] → (registerByte t r).getLsbD j = (registerByte s r).getLsbD j) ∧
      (∀ r, 9 ≤ r → r ≤ 12 → registerByte t r = registerByte s r) ∧
      ((registerByte s 0x00).getLsbD 5 = true → ∀ r j, 2 ≤ r → r ≤ 8 → j < 8 → (countedBits r).getLsbD j = true →
        (registerByte t r).getLsbD j = (registerByte s r).getLsbD j) ∧
      ((registerByte s 0x0E).getLsbD 7 = false → registerByte t 0x0F = registerByte s 0x0F)))

/-- R235, R247: `getDateTime` of a seconds register with VL set returns ClockIntegrityError and no field, from either
peer. Once a TIME_UNPACK of the operation has raised, whatever is evaluated after it, the operation returns no field. That
the reads change no register is log entry 10. -/
def Obligations.GetDateTimeReportsVoltageLow : Prop :=
  (∀ (s : State) (rest : List ControllerAction),
    s.bus = .answering → currentOp s.trace = none → (registerByte s 0x02).getLsbD 7 = true →
    s.agenda = hostOpActions .getDateTime ++ rest →
    ∃ t, runsTo 4 s t ∧ t.agenda = rest ∧ t.registers = s.registers ∧ t.returned = some .clockIntegrityError) ∧
  (∀ (s t : State) (cw rw : Word) (rest : List ControllerAction), s.agenda = .finish :: rest →
    currentOp s.trace = some .getDateTime → .evaluated cw rw ∈ sinceBegan s.trace → resultStatus rw = 1#2 →
    step s = .next t → t.returned = some .clockIntegrityError)

/-! ## Host operations in the simulated register store -/

/-- R128, R234, R235: `setDateTime` of a valid date and time and then `getDateTime` runs free of faults through the
simulated register store and returns it. Control1 ends with STOP clear and its other bits as they were; every
register outside control1 and the time block is unchanged. -/
def Obligations.SetDateTimeThenGetReturnsIt : Prop :=
  ∀ (s : State) (d : DateTime) (rest : List ControllerAction),
    s.peer = .simulatedStore → s.bus = .answering → Memory.wf s.registers = true → currentOp s.trace = none →
    validDateTime d = true → s.agenda = hostOpActions (.setDateTime d) ++ hostOpActions .getDateTime ++ rest →
    ∃ t, runsTo 14 s t ∧ t.agenda = rest ∧
      t.returned = some (.dateTime d.seconds d.minutes d.hours d.day d.weekday d.month (d.year.setWidth 9)) ∧
      registerByte t 0x00 = registerByte s 0x00 &&& 0xDF#8 ∧
      (∀ a, a = 1 ∨ 9 ≤ a → registerByte t a = registerByte s a)

/-- R236: through the simulated register store (L3, log entry 6) `setAlarm` runs free of faults; the alarm block of the
store holds what ALARM_PACK gives, its control2 has AIE as requested and its other bits as they were, and every other
register is unchanged. What the real chip holds of them is U1, U6 and R246. -/
def Obligations.SetAlarmWritesTheAlarmBlock : Prop :=
  ∀ (s : State) (al : AlarmTime) (ie : Bool) (rest : List ControllerAction),
    s.peer = .simulatedStore → s.bus = .answering → Memory.wf s.registers = true → currentOp s.trace = none →
    s.agenda = hostOpActions (.setAlarm al ie) ++ rest →
    ∃ t, runsTo 9 s t ∧ t.agenda = rest ∧
      registerByte t 0x09 = alarmField (al.mask.getLsbD 0) al.minutes ∧
      registerByte t 0x0A = alarmField (al.mask.getLsbD 1) al.hours ∧
      registerByte t 0x0B = alarmField (al.mask.getLsbD 2) al.day ∧
      registerByte t 0x0C = alarmField (al.mask.getLsbD 3) al.weekday ∧
      (∀ k, k < 8 → (registerByte t 0x01).getLsbD k = if k = 1 then ie else (registerByte s 0x01).getLsbD k) ∧
      (∀ a, a = 0 ∨ (2 ≤ a ∧ a ≤ 8) ∨ 13 ≤ a → registerByte t a = registerByte s a)

/-- R252, which the spec derives from R238: after two calls of `setTimer` the counter register holds the second call's
counter, and timer-control is enabled, with the second call's clock source, only if the second call asked for it. It holds
of either peer; that the real chip holds these two registers as written is log entry 7, and that its reads change no
register is log entry 10. -/
def Obligations.TimerRestartSafety : Prop :=
  ∀ (s : State) (c c' : TimerConfig) (rest : List ControllerAction),
    s.bus = .answering → Memory.wf s.registers = true → currentOp s.trace = none →
    s.agenda = hostOpActions (.setTimer c) ++ hostOpActions (.setTimer c') ++ rest →
    ∃ t, runsTo (hostOpActions (.setTimer c) ++ hostOpActions (.setTimer c')).length s t ∧ t.agenda = rest ∧
      registerByte t 0x0F = c'.counter ∧
      registerByte t 0x0E =
        (if c'.enabled then 0x80#8 ||| (clockSourceCode c'.clockSource).setWidth 8 else 0x00#8) ∧
      timerEnableBit (registerByte t 0x0E) = c'.enabled

/-- R237, R239: the flag accessors. The getters return AF and TF of control2 and write nothing, with either peer; that
their read changes no register is log entry 10, and that the real chip gives control2 as held is U5 (log entry 25). The
clearers clear that one bit of control2 in the simulated register store (L3, log entry 6); whether a write clears a flag
of the real chip no source says (N11, U6). -/
def Obligations.FlagAccessorsTouchOneBit : Prop :=
  ∀ (s : State) (rest : List ControllerAction), s.bus = .answering → currentOp s.trace = none →
    (s.agenda = hostOpActions .getAlarmFlag ++ rest →
      ∃ t, runsTo 4 s t ∧ t.agenda = rest ∧ t.registers = s.registers ∧
        t.returned = some (.flag ((registerByte s 0x01).getLsbD 3))) ∧
    (s.agenda = hostOpActions .getTimerFlag ++ rest →
      ∃ t, runsTo 4 s t ∧ t.agenda = rest ∧ t.registers = s.registers ∧
        t.returned = some (.flag ((registerByte s 0x01).getLsbD 2))) ∧
    (s.peer = .simulatedStore → Memory.wf s.registers = true → s.agenda = hostOpActions .clearAlarmFlag ++ rest →
      ∃ t, runsTo 5 s t ∧ t.agenda = rest ∧ registerByte t 0x01 = registerByte s 0x01 &&& 0xF7#8 ∧
        ∀ a, a ≠ 1 → registerByte t a = registerByte s a) ∧
    (s.peer = .simulatedStore → Memory.wf s.registers = true → s.agenda = hostOpActions .clearTimerFlag ++ rest →
      ∃ t, runsTo 5 s t ∧ t.agenda = rest ∧ registerByte t 0x01 = registerByte s 0x01 &&& 0xFB#8 ∧
        ∀ a, a ≠ 1 → registerByte t a = registerByte s a)

/-- R240: `setClkoutFrequency` is one write and no read: the clkout register holds the frequency code and the enable
bit, and every other register is unchanged. It holds of either peer; that the real chip holds the byte as written, bits
6:2 among it, is log entry 7. -/
def Obligations.SetClkoutFrequencyWritesOneByte : Prop :=
  ∀ (s : State) (c : ClkoutConfig) (rest : List ControllerAction),
    s.bus = .answering → Memory.wf s.registers = true → currentOp s.trace = none →
    s.agenda = hostOpActions (.setClkoutFrequency c) ++ rest →
    ∃ t, runsTo 4 s t ∧ t.agenda = rest ∧ frequencyOf (registerByte t 0x0D) = c.frequency ∧
      clkoutEnableBit (registerByte t 0x0D) = c.enabled ∧ registerByte t 0x0D &&& 0x7C#8 = 0x00#8 ∧
      (∀ a, a ≠ 0x0D → registerByte t a = registerByte s a)

/-- R241, whose end state the spec derives from R234 to R240: what the simulated register store (L3, log entry 6) holds
after initialization with the date and time `d`, whatever the open parameters are; and what the real chip does, by log
entries 7, 10 and 25: the same, but for AF and TF (U6), VL (N11), and the time block where `d` is not valid (U1). Control2
bits 7:5 are as the chip held them. -/
def Obligations.InitializationLeavesTheFactoryState : Prop :=
  ∀ (s : State) (supplied : Option DateTime) (rest : List ControllerAction),
    s.bus = .answering → Memory.wf s.registers = true → currentOp s.trace = none →
    s.agenda = initializeActions supplied ++ rest →
    ∃ (t : State) (d : DateTime), runsTo 32 s t ∧ t.agenda = rest ∧ d = supplied.getD Config.defaultDateTime ∧
      [registerByte t 0x09, registerByte t 0x0A, registerByte t 0x0B, registerByte t 0x0C] =
        [0x80#8, 0x80#8, 0x80#8, 0x80#8] ∧
      registerByte t 0x0D = clkoutByte Config.defaultClkoutEn (frequencyCode Config.defaultClkoutFreq) ∧
      registerByte t 0x0E = 0x00#8 ∧ registerByte t 0x0F = 0x00#8 ∧
      registerByte t 0x00 = registerByte s 0x00 &&& 0xDF#8 ∧
      registerByte t 0x01 &&& 0xF3#8 = registerByte s 0x01 &&& 0xE0#8 ∧
      (s.peer = .simulatedStore →
        registerByte t 0x01 = registerByte s 0x01 &&& 0xE8#8 ∧
        [registerByte t 0x02, registerByte t 0x03, registerByte t 0x04, registerByte t 0x05, registerByte t 0x06,
          registerByte t 0x07, registerByte t 0x08] =
          [enc d.seconds, enc d.minutes, enc d.hours, enc d.day, enc d.weekday, monthByte d.month d.year,
            yearByte d.year]) ∧
      (s.peer = .realChip → validDateTime d = true →
        [registerByte t 0x02 &&& 0x7F#8, registerByte t 0x03, registerByte t 0x04, registerByte t 0x05,
          registerByte t 0x06, registerByte t 0x07, registerByte t 0x08] =
          [enc d.seconds, enc d.minutes, enc d.hours, enc d.day, enc d.weekday, monthByte d.month d.year,
            yearByte d.year])
end

