-- ==== Sys2Proof/Laws/State.lean ====
section
/-! SUPPORT. One lemma per field per update of State, each true by rfl (or by induction over the bytes of a
transaction). -/

namespace Sys2Proof.Laws

open Sys2Proof Sys2Proof.Machine

@[simp] theorem landByte_command (a : Nat) (b : Byte) (s : State) : (landByte a b s).command = s.command := rfl

@[simp] theorem landByte_result (a : Nat) (b : Byte) (s : State) : (landByte a b s).result = s.result := rfl

@[simp] theorem landByte_peer (a : Nat) (b : Byte) (s : State) : (landByte a b s).peer = s.peer := rfl

@[simp] theorem landByte_bus (a : Nat) (b : Byte) (s : State) : (landByte a b s).bus = s.bus := rfl

@[simp] theorem landByte_agenda (a : Nat) (b : Byte) (s : State) : (landByte a b s).agenda = s.agenda := rfl

@[simp] theorem landByte_trace (a : Nat) (b : Byte) (s : State) : (landByte a b s).trace = s.trace := rfl

@[simp] theorem landByte_returned (a : Nat) (b : Byte) (s : State) : (landByte a b s).returned = s.returned := rfl

@[simp] theorem landByte_draws (a : Nat) (b : Byte) (s : State) : (landByte a b s).draws = s.draws + 1 := rfl

@[simp] theorem landByte_registers (a : Nat) (b : Byte) (s : State) :
    (landByte a b s).registers = s.registers.write a (landedByte s.peer a b (Config.chipDraw s.draws)) := rfl

@[simp] theorem landBytes_command (a : Nat) (bs : List Byte) (s : State) : (landBytes a bs s).command = s.command := by
  induction bs generalizing a s with
  | nil => rfl
  | cons b bs ih => simp [landBytes, ih]

@[simp] theorem landBytes_result (a : Nat) (bs : List Byte) (s : State) : (landBytes a bs s).result = s.result := by
  induction bs generalizing a s with
  | nil => rfl
  | cons b bs ih => simp [landBytes, ih]

@[simp] theorem landBytes_peer (a : Nat) (bs : List Byte) (s : State) : (landBytes a bs s).peer = s.peer := by
  induction bs generalizing a s with
  | nil => rfl
  | cons b bs ih => simp [landBytes, ih]

@[simp] theorem landBytes_bus (a : Nat) (bs : List Byte) (s : State) : (landBytes a bs s).bus = s.bus := by
  induction bs generalizing a s with
  | nil => rfl
  | cons b bs ih => simp [landBytes, ih]

@[simp] theorem landBytes_agenda (a : Nat) (bs : List Byte) (s : State) : (landBytes a bs s).agenda = s.agenda := by
  induction bs generalizing a s with
  | nil => rfl
  | cons b bs ih => simp [landBytes, ih]

@[simp] theorem landBytes_trace (a : Nat) (bs : List Byte) (s : State) : (landBytes a bs s).trace = s.trace := by
  induction bs generalizing a s with
  | nil => rfl
  | cons b bs ih => simp [landBytes, ih]

@[simp] theorem landBytes_returned (a : Nat) (bs : List Byte) (s : State) : (landBytes a bs s).returned = s.returned := by
  induction bs generalizing a s with
  | nil => rfl
  | cons b bs ih => simp [landBytes, ih]

@[simp] theorem landBytes_draws (a : Nat) (bs : List Byte) (s : State) :
    (landBytes a bs s).draws = s.draws + bs.length := by
  induction bs generalizing a s with
  | nil => rfl
  | cons b bs ih => simp [landBytes, ih]; omega

@[simp] theorem chipChange_command (a : Nat) (v : Byte) (s : State) : (chipChange a v s).command = s.command := rfl

@[simp] theorem chipChange_result (a : Nat) (v : Byte) (s : State) : (chipChange a v s).result = s.result := rfl

@[simp] theorem chipChange_peer (a : Nat) (v : Byte) (s : State) : (chipChange a v s).peer = s.peer := rfl

@[simp] theorem chipChange_bus (a : Nat) (v : Byte) (s : State) : (chipChange a v s).bus = s.bus := rfl

@[simp] theorem chipChange_draws (a : Nat) (v : Byte) (s : State) : (chipChange a v s).draws = s.draws := rfl

@[simp] theorem chipChange_agenda (a : Nat) (v : Byte) (s : State) : (chipChange a v s).agenda = s.agenda := rfl

@[simp] theorem chipChange_trace (a : Nat) (v : Byte) (s : State) : (chipChange a v s).trace = s.trace := rfl

@[simp] theorem chipChange_returned (a : Nat) (v : Byte) (s : State) : (chipChange a v s).returned = s.returned := rfl

@[simp] theorem loadCommand_command (w : Word) (s : State) : (loadCommand w s).command = w := rfl

@[simp] theorem loadCommand_result (w : Word) (s : State) : (loadCommand w s).result = s.result := rfl

@[simp] theorem loadCommand_registers (w : Word) (s : State) : (loadCommand w s).registers = s.registers := rfl

@[simp] theorem loadCommand_peer (w : Word) (s : State) : (loadCommand w s).peer = s.peer := rfl

@[simp] theorem loadCommand_bus (w : Word) (s : State) : (loadCommand w s).bus = s.bus := rfl

@[simp] theorem loadCommand_draws (w : Word) (s : State) : (loadCommand w s).draws = s.draws := rfl

@[simp] theorem loadCommand_agenda (w : Word) (s : State) : (loadCommand w s).agenda = [] := rfl

@[simp] theorem loadCommand_trace (w : Word) (s : State) : (loadCommand w s).trace = s.trace := rfl

@[simp] theorem loadCommand_returned (w : Word) (s : State) : (loadCommand w s).returned = s.returned := rfl

end Sys2Proof.Laws
end

