-- ==== Sys2Proof/Laws/Ops.lean ====
section
/-! SUPPORT. The fields of a packed result word (spec/30_encoding.md R61), and what completing a command, raising an
exception and running an instruction can do. -/

namespace Sys2Proof.Laws

open Sys2Proof Sys2Proof.Machine

section Pack

variable (st : BitVec 2) (r : Bool) (l : Lanes)

theorem resultStatus_packResult : resultStatus (packResult st r l) = st := by
  ext i hi
  simp only [resultStatus, packResult, BitVec.getElem_extractLsb', BitVec.getLsbD_append]
  interval_cases i <;> simp

theorem resultFlag_packResult : resultFlag (packResult st r l) = r := by
  simp only [resultFlag, packResult, BitVec.getLsbD_append]
  simp

theorem resultZeroField_packResult : resultZeroField (packResult st r l) = 0#5 := by
  ext i hi
  simp only [resultZeroField, packResult, BitVec.getElem_extractLsb', BitVec.getLsbD_append]
  interval_cases i <;> simp

theorem resultLane0_packResult : resultLane (packResult st r l) 0 = l.r0 := by
  ext i hi
  simp only [resultLane, packResult, BitVec.getElem_extractLsb', BitVec.getLsbD_append]
  interval_cases i <;> simp

theorem resultLane1_packResult : resultLane (packResult st r l) 1 = l.r1 := by
  ext i hi
  simp only [resultLane, packResult, BitVec.getElem_extractLsb', BitVec.getLsbD_append]
  interval_cases i <;> simp

theorem resultLane2_packResult : resultLane (packResult st r l) 2 = l.r2 := by
  ext i hi
  simp only [resultLane, packResult, BitVec.getElem_extractLsb', BitVec.getLsbD_append]
  interval_cases i <;> simp

theorem resultLane3_packResult : resultLane (packResult st r l) 3 = l.r3 := by
  ext i hi
  simp only [resultLane, packResult, BitVec.getElem_extractLsb', BitVec.getLsbD_append]
  interval_cases i <;> simp

theorem resultLane4_packResult : resultLane (packResult st r l) 4 = l.r4 := by
  ext i hi
  simp only [resultLane, packResult, BitVec.getElem_extractLsb', BitVec.getLsbD_append]
  interval_cases i <;> simp

theorem resultLane5_packResult : resultLane (packResult st r l) 5 = l.r5 := by
  ext i hi
  simp only [resultLane, packResult, BitVec.getElem_extractLsb', BitVec.getLsbD_append]
  interval_cases i <;> simp

theorem resultLane6_packResult : resultLane (packResult st r l) 6 = l.r6 := by
  ext i hi
  simp only [resultLane, packResult, BitVec.getElem_extractLsb', BitVec.getLsbD_append]
  interval_cases i <;> simp

end Pack

/-- An exception's result word has every lane 0. -/
theorem lanesZero_of_raise (st : BitVec 2) : (packResult st false {}).extractLsb' 0 56 = 0#56 := by
  revert st; decide

/-- Completing a command changes the result word and nothing else. -/
theorem complete_eq (r : Bool) (l : Lanes) (s : State) :
    complete r l s = .next { s with result := packResult statusOk r l } := rfl

/-- Raising an exception changes the result word and nothing else. -/
theorem raiseException_eq (e : CodecException) (s : State) :
    raiseException e s = .next { s with result := packResult (exceptionStatus e) false {} } := rfl

/-- Everything running an instruction can do, in every state alike: it completes, or it raises an exception. -/
theorem exec_cases (i : Instr) :
    (∃ r l, ∀ s, exec i s = complete r l s) ∨ (∃ e, ∀ s, exec i s = raiseException e s) := by
  cases i with
  | timeUnpack b0 b1 b2 b3 b4 b5 b6 =>
    by_cases h : voltageLowBit b0 = true
    · exact .inr ⟨.clockIntegrity, fun s => by simp only [exec, execTimeUnpack, if_pos h]⟩
    · exact .inl ⟨_, _, fun s => by simp only [exec, execTimeUnpack, if_neg h]; rfl⟩
  | reserved => exact .inr ⟨.illegalOp, fun _ => rfl⟩
  | bcdEnc v => exact .inl ⟨_, _, fun _ => rfl⟩
  | bcdDec b => exact .inl ⟨_, _, fun _ => rfl⟩
  | timePack a b c d e f g => exact .inl ⟨_, _, fun _ => rfl⟩
  | c1StopWr c b => exact .inl ⟨_, _, fun _ => rfl⟩
  | alarmPack m a b c d => exact .inl ⟨_, _, fun _ => rfl⟩
  | c2AieWr c b => exact .inl ⟨_, _, fun _ => rfl⟩
  | c2AfGet c => exact .inl ⟨_, _, fun _ => rfl⟩
  | c2AfClr c => exact .inl ⟨_, _, fun _ => rfl⟩
  | c2TmrCfg c r i => exact .inl ⟨_, _, fun _ => rfl⟩
  | tctlPack e c => exact .inl ⟨_, _, fun _ => rfl⟩
  | tcntPack c => exact .inl ⟨_, _, fun _ => rfl⟩
  | c2TfGet c => exact .inl ⟨_, _, fun _ => rfl⟩
  | c2TfClr c => exact .inl ⟨_, _, fun _ => rfl⟩
  | clkoutPack e q => exact .inl ⟨_, _, fun _ => rfl⟩

end Sys2Proof.Laws
end

