-- ==== Sys2Proof/Laws/Memory.lean ====
section
/-! SUPPORT. The chip's register space: reading, writing and the canonical form (spec/20_memory.md R41, R42). -/

namespace Sys2Proof.Laws

open Sys2Proof Sys2Proof.Machine

/-- A read after a write to the same address gives the byte written. -/
theorem Memory.read_write_same (m : Memory) (a : Nat) (v : Byte) :
    Memory.read (Memory.write m a v) a = some v := by
  induction m with
  | nil => simp [Memory.write, Memory.read]
  | cons c m ih =>
    obtain ⟨k, b⟩ := c
    simp only [Memory.write]
    split
    · simp [Memory.read]
    · split
      · simp [Memory.read]
      · simp [Memory.read, *]

/-- A write leaves every other address alone. -/
theorem Memory.read_write_other (m : Memory) (a a' : Nat) (v : Byte) (lo : Nat) (hm : Memory.wfFrom lo m = true)
    (h : a' ≠ a) : Memory.read (Memory.write m a v) a' = Memory.read m a' := by
  induction m generalizing lo with
  | nil => simp [Memory.write, Memory.read, h]
  | cons c m ih =>
    obtain ⟨k, b⟩ := c
    simp only [Memory.wfFrom, Bool.and_eq_true, decide_eq_true_eq] at hm
    simp only [Memory.write]
    split
    · next hk => subst hk; simp only [Memory.read, if_neg h]
    · split
      · next hk hlt =>
        simp only [Memory.read, if_neg h]
        split
        · next h1 => simp [Nat.ne_of_lt (Nat.lt_trans h1 hlt), Nat.lt_trans h1 hlt]
        · rfl
      · simp only [Memory.read, ih _ hm.2]

/-- A write at a register's address keeps the canonical form. -/
theorem Memory.wfFrom_write (m : Memory) (a : Nat) (v : Byte) (lo : Nat) (hm : Memory.wfFrom lo m = true)
    (hlo : lo ≤ a) (ha : a < registerCount) : Memory.wfFrom lo (Memory.write m a v) = true := by
  induction m generalizing lo with
  | nil => simp [Memory.write, Memory.wfFrom, hlo, ha]
  | cons c m ih =>
    obtain ⟨k, b⟩ := c
    simp only [Memory.wfFrom, Bool.and_eq_true, decide_eq_true_eq] at hm
    simp only [Memory.write]
    split
    · next hk => subst hk; simp [Memory.wfFrom, hm.1, hm.2]
    · split
      · next hk hlt => simp [Memory.wfFrom, hm, hlo, ha, Nat.succ_le_of_lt hlt]
      · next hk hlt =>
        have hka : k + 1 ≤ a := by omega
        simp [Memory.wfFrom, hm.1, ih _ hm.2 hka]

/-- A write transaction inside the register space keeps the canonical form. -/
theorem wf_landBytes (a : Nat) (bs : List Byte) (s : State) (hs : Memory.wf s.registers = true)
    (h : a + bs.length ≤ registerCount) : Memory.wf (landBytes a bs s).registers = true := by
  induction bs generalizing a s with
  | nil => exact hs
  | cons b bs ih =>
    simp only [List.length_cons] at h
    refine ih (a + 1) (landByte a b s) ?_ (by omega)
    exact Memory.wfFrom_write _ _ _ _ hs (Nat.zero_le _) (by omega)

/-- A byte with the bits of a mask taken from another byte, bit by bit. -/
theorem getLsbD_takeBits (mask old new : Byte) (k : Nat) (hk : k < 8) :
    (takeBits mask old new).getLsbD k = if mask.getLsbD k then new.getLsbD k else old.getLsbD k := by
  simp only [takeBits, BitVec.getLsbD_or, BitVec.getLsbD_and, BitVec.getLsbD_not, hk, decide_true, Bool.true_and]
  cases mask.getLsbD k <;> simp

/-- A byte with no bit taken from another is as it was. -/
theorem takeBits_none (old new : Byte) : takeBits 0#8 old new = old :=
  BitVec.eq_of_getLsbD_eq fun k hk => by simp [getLsbD_takeBits _ _ _ _ hk]

/-- A bit that is neither unnamed nor a flag of the chip nor counted is none of the chip's. -/
theorem chipOwnBits_of_controller {s : State} {a j : Nat} (hu : (unnamedBits a).getLsbD j = false)
    (hf : (chipFlagBits a).getLsbD j = false) (hc : (countedBits a).getLsbD j = false) :
    (chipOwnBits s a).getLsbD j = false := by
  simp only [chipOwnBits, BitVec.getLsbD_or, hu, hf, Bool.false_or]
  split
  · exact hc
  · simp

/-- A counted bit of a register that stands still is none of the chip's. -/
theorem chipOwnBits_of_still {s : State} {a j : Nat} (hu : (unnamedBits a).getLsbD j = false)
    (hf : (chipFlagBits a).getLsbD j = false) (hs : countsNow s a = false) :
    (chipOwnBits s a).getLsbD j = false := by
  simp [chipOwnBits, hu, hf, hs]

/-- A chip step keeps the canonical form. -/
theorem wf_chipChange (a : Nat) (v : Byte) (s : State) (hs : Memory.wf s.registers = true) (ha : a < registerCount) :
    Memory.wf (chipChange a v s).registers = true :=
  Memory.wfFrom_write _ _ _ _ hs (Nat.zero_le _) ha

/-- What a chip step leaves in the register it changes. -/
theorem registerByte_chipChange_same (a : Nat) (v : Byte) (s : State) :
    registerByte (chipChange a v s) a = takeBits (chipOwnBits s a) (registerByte s a) v := by
  simp only [registerByte, chipChange, Memory.read_write_same, Option.getD_some]

/-- A chip step leaves every other register alone. -/
theorem registerByte_chipChange_other (a a' : Nat) (v : Byte) (s : State) (hs : Memory.wf s.registers = true)
    (h : a' ≠ a) : registerByte (chipChange a v s) a' = registerByte s a' := by
  simp only [registerByte, chipChange, Memory.read_write_other _ _ _ _ 0 hs h]

/-- A control byte is read as it is held, from either peer (U5). -/
theorem readByte_control (p : Peer) (a : Nat) (held draw : Byte) (ha : a ≤ 1) : readByte p a held draw = held := by
  cases p with
  | simulatedStore => rfl
  | realChip =>
    interval_cases a
    · exact takeBits_none held draw
    · exact takeBits_none held draw

/-- A read gives as many bytes as it asks for. -/
theorem length_readBytes (s : State) (a d n : Nat) : (readBytes s a d n).length = n := by
  induction n generalizing a d with
  | zero => rfl
  | succ n ih => simp only [readBytes, List.length_cons, ih]

/-- Byte `k` of a read. -/
theorem getElem_readBytes (s : State) (a d n k : Nat) (hk : k < n) :
    (readBytes s a d n)[k]? = some (readByte s.peer (a + k) (registerByte s (a + k)) (Config.chipDraw (d + k))) := by
  induction n generalizing a d k with
  | zero => omega
  | succ n ih =>
    cases k with
    | zero => rfl
    | succ k =>
      rw [readBytes, List.getElem?_cons_succ, ih (a + 1) (d + 1) k (by omega)]
      simp only [Nat.add_right_comm, Nat.add_assoc]

/-- The memory of reset has the canonical form. -/
theorem wf_reset : Memory.wf State.reset.registers = true := rfl

/-- Below the start address a transaction changes no register. -/
theorem read_landBytes_below (a a' : Nat) (bs : List Byte) (s : State) (hs : Memory.wf s.registers = true)
    (h : a + bs.length ≤ registerCount) (hlt : a' < a) :
    Memory.read (landBytes a bs s).registers a' = Memory.read s.registers a' := by
  induction bs generalizing a s with
  | nil => rfl
  | cons b bs ih =>
    simp only [List.length_cons] at h
    have hw : Memory.wf (landByte a b s).registers = true :=
      Memory.wfFrom_write _ _ _ _ hs (Nat.zero_le _) (by omega)
    rw [landBytes, ih (a + 1) (landByte a b s) hw (by omega) (by omega), landByte_registers]
    exact Memory.read_write_other _ _ _ _ 0 hs (by omega)

/-- Above its last byte a transaction changes no register. -/
theorem read_landBytes_above (a a' : Nat) (bs : List Byte) (s : State) (hs : Memory.wf s.registers = true)
    (h : a + bs.length ≤ registerCount) (hle : a + bs.length ≤ a') :
    Memory.read (landBytes a bs s).registers a' = Memory.read s.registers a' := by
  induction bs generalizing a s with
  | nil => rfl
  | cons b bs ih =>
    simp only [List.length_cons] at h hle
    have hw : Memory.wf (landByte a b s).registers = true :=
      Memory.wfFrom_write _ _ _ _ hs (Nat.zero_le _) (by omega)
    rw [landBytes, ih (a + 1) (landByte a b s) hw (by omega) (by omega), landByte_registers]
    exact Memory.read_write_other _ _ _ _ 0 hs (by omega)

/-- Byte `k` of a transaction lands at its own address, from the free value of its own place. -/
theorem read_landBytes_at (a k : Nat) (b : Byte) (bs : List Byte) (s : State) (hs : Memory.wf s.registers = true)
    (h : a + bs.length ≤ registerCount) (hk : bs[k]? = some b) :
    Memory.read (landBytes a bs s).registers (a + k) =
      some (landedByte s.peer (a + k) b (Config.chipDraw (s.draws + k))) := by
  induction bs generalizing a s k with
  | nil => simp at hk
  | cons x xs ih =>
    simp only [List.length_cons] at h
    have hw : Memory.wf (landByte a x s).registers = true :=
      Memory.wfFrom_write _ _ _ _ hs (Nat.zero_le _) (by omega)
    cases k with
    | zero =>
      cases hk
      exact (read_landBytes_below (a + 1) a xs (landByte a b s) hw (by omega) (by omega)).trans
        (Memory.read_write_same _ _ _)
    | succ k =>
      have hr := ih (a + 1) k (landByte a x s) hw (by omega) hk
      rw [landBytes, show a + (k + 1) = a + 1 + k by omega, hr, landByte_peer, landByte_draws,
        show s.draws + 1 + k = s.draws + (k + 1) by omega]

end Sys2Proof.Laws
end

