-- ==== Sys2Proof/Laws/Controller.lean ====
section
/-! SUPPORT. What an action, a step and a run can do (spec/70_reset_and_hazards.md R233). -/

namespace Sys2Proof.Laws

open Sys2Proof Sys2Proof.Machine Sys2Proof.Safety

/-! ## Result words -/

/-- A packed result word has the fields it was packed from. -/
theorem resultIs_packResult (st : BitVec 2) (r : Bool) (l : Lanes) :
    ResultIs (packResult st r l) st r [l.r0, l.r1, l.r2, l.r3, l.r4, l.r5, l.r6] := by
  refine ⟨resultStatus_packResult st r l, resultFlag_packResult st r l, resultZeroField_packResult st r l, ?_⟩
  intro k hk
  match k with
  | 0 => exact resultLane0_packResult st r l
  | 1 => exact resultLane1_packResult st r l
  | 2 => exact resultLane2_packResult st r l
  | 3 => exact resultLane3_packResult st r l
  | 4 => exact resultLane4_packResult st r l
  | 5 => exact resultLane5_packResult st r l
  | 6 => exact resultLane6_packResult st r l
  | k + 7 => omega

/-- A list of lanes may leave out trailing zero lanes. -/
theorem resultIs_congr {rw : Word} {st : BitVec 2} {r : Bool} {l l' : List Byte} (h : ResultIs rw st r l)
    (hl : ∀ k, k < 7 → l.getD k 0#8 = l'.getD k 0#8) : ResultIs rw st r l' :=
  ⟨h.1, h.2.1, h.2.2.1, fun k hk => (h.2.2.2 k hk).trans (hl k hk)⟩

/-- The word an instruction gives, in every state alike: exec answers a next state that differs from the old one in
the result alone. -/
theorem exec_next (i : Instr) : ∃ w, ∀ s, exec i s = .next { s with result := w } := by
  rcases exec_cases i with ⟨r, l, h⟩ | ⟨e, h⟩
  · exact ⟨_, h⟩
  · exact ⟨_, h⟩

/-- exec answers no state but one that differs in the result alone. -/
theorem exec_inv {i : Instr} {s t : State} (h : exec i s = .next t) : t = { s with result := t.result } := by
  obtain ⟨w, hw⟩ := exec_next i
  rw [hw s] at h
  cases h
  rfl

/-! ## Hazards and the trace -/

/-- The hazard of an evaluation does not depend on its result word. -/
theorem hazardOf_evaluated (cw rw : Word) (past : List BusEvent) :
    hazardOf (.evaluated cw rw) past = hazardOf (.evaluated cw 0) past := rfl

/-- Recording an event adds it to the trace and does nothing else, and the event ran into no hazard. -/
theorem record_inv {e : BusEvent} {s t : State} (h : record e s = .next t) :
    t = { s with trace := e :: s.trace } ∧ hazardOf e s.trace = none := by
  unfold record at h
  split at h
  · cases h
  · next hz => cases h; exact ⟨rfl, hz⟩

/-- An event that runs into no hazard is recorded. -/
theorem record_next {e : BusEvent} {s : State} (h : hazardOf e s.trace = none) :
    record e s = .next { s with trace := e :: s.trace } := by
  simp only [record, h]

/-- An event that runs into no hazard keeps a trace clean. -/
theorem traceOk_cons {e : BusEvent} {past : List BusEvent} (h : hazardOf e past = none)
    (ht : traceOk past = true) : traceOk (e :: past) = true := by
  simp only [traceOk, h, ht, Option.isNone_none, Bool.and_self]

/-! ## What each action does when it answers a next state -/

theorem actRead_inv {a n : Nat} {s t : State} (h : actRead a n s = .next t) :
    s.bus = .answering ∧ a + n ≤ registerCount ∧
      t = { s with draws := s.draws + n, trace := .didRead a (readBytes s a s.draws n) :: s.trace } := by
  unfold actRead at h
  split at h
  · cases h
  · cases h
  · next hb =>
    split at h
    · next hr =>
      simp only [inRegisterSpace, decide_eq_true_eq] at hr
      exact ⟨hb, hr, (record_inv h).1⟩
    · cases h

theorem issue_inv {cw : Word} {s t : State} (h : issue cw s = .next t) :
    hazardOf (.evaluated cw 0) s.trace = none ∧
      ∃ u, exec (decode cw) { s with command := cw } = .next u ∧
        t = { u with trace := .evaluated cw u.result :: u.trace } := by
  unfold issue at h
  split at h
  · cases h
  · next hz =>
    refine ⟨hz, ?_⟩
    split at h
    · next u hu => cases h; exact ⟨u, hu, rfl⟩
    · cases h
    · cases h

theorem withOperands_inv {os : List Operand} {s t : State} {k : List Byte → Host.Outcome State Fault Refusal}
    (h : withOperands os s k = .next t) :
    os.any (operandErrored s.trace) = false ∧ ∃ bs, operandBytes s.trace os = some bs ∧ k bs = .next t := by
  unfold withOperands at h
  split at h
  · cases h
  · next he =>
    refine ⟨by simpa using he, ?_⟩
    split at h
    · next bs hb => exact ⟨bs, hb, h⟩
    · cases h

theorem writeBytes_inv {a : Nat} {bs : List Byte} {s t : State} (h : writeBytes a bs s = .next t) :
    s.bus = .answering ∧ a + bs.length ≤ registerCount ∧ hazardOf (.wrote a bs) s.trace = none ∧
      t = { landBytes a bs s with trace := .wrote a bs :: s.trace } := by
  unfold writeBytes at h
  split at h
  · cases h
  · cases h
  · next hb =>
    split at h
    · next hr =>
      simp only [inRegisterSpace, decide_eq_true_eq] at hr
      obtain ⟨ht, hz⟩ := record_inv h
      rw [landBytes_trace] at ht hz
      exact ⟨hb, hr, hz, ht⟩
    · cases h

theorem actFinish_inv {s t : State} (h : actFinish s = .next t) :
    ∃ op r, currentOp s.trace = some op ∧ hazardOf .ended s.trace = none ∧
      hostReturn op (sinceBegan s.trace) = some r ∧
      t = { s with returned := some r, trace := .ended :: s.trace } := by
  unfold actFinish at h
  split at h
  · cases h
  · next op hop =>
    split at h
    · cases h
    · next r hz hr => cases h; exact ⟨op, r, hop, hz, hr, rfl⟩
    · cases h

theorem actChipSets_inv {a : Nat} {v : Byte} {s t : State} (h : actChipSets a v s = .next t) :
    a < registerCount ∧ t = chipChange a v s := by
  unfold actChipSets at h
  split at h
  · next hr =>
    simp only [inRegisterSpace, decide_eq_true_eq] at hr
    cases h
    exact ⟨by omega, rfl⟩
  · cases h

/-! ## Doing an action -/

theorem actRead_next {a n : Nat} {s : State} (hb : s.bus = .answering) (hr : a + n ≤ registerCount) :
    actRead a n s =
      .next { s with draws := s.draws + n, trace := .didRead a (readBytes s a s.draws n) :: s.trace } := by
  simp only [actRead, hb, inRegisterSpace, hr, decide_true, if_true]
  exact record_next (e := .didRead a (readBytes s a s.draws n)) rfl

theorem actEvaluate_next {op f : Nibble} {os : List Operand} {bs : List Byte} {s : State} {w : Word}
    (he : os.any (operandErrored s.trace) = false) (ho : operandBytes s.trace os = some bs)
    (hz : hazardOf (.evaluated (issuedWord op f bs) 0) s.trace = none)
    (hx : ∀ u : State, exec (decode (issuedWord op f bs)) u = .next { u with result := w }) :
    actEvaluate op f os s =
      .next { s with
        command := issuedWord op f bs, result := w
        trace := .evaluated (issuedWord op f bs) w :: s.trace } := by
  simp only [actEvaluate, withOperands, he, ho, issue, hz, hx, Bool.false_eq_true, if_false]

theorem actWrite_next {a : Nat} {os : List Operand} {bs : List Byte} {s : State} (hb : s.bus = .answering)
    (he : os.any (operandErrored s.trace) = false) (ho : operandBytes s.trace os = some bs)
    (hr : a + bs.length ≤ registerCount) (hz : hazardOf (.wrote a bs) s.trace = none) :
    actWrite a os s = .next { landBytes a bs s with trace := .wrote a bs :: s.trace } := by
  have h : actWrite a os s = record (.wrote a bs) (landBytes a bs s) := by
    simp only [actWrite, withOperands, he, ho, writeBytes, hb, inRegisterSpace, hr, decide_true, if_true,
      Bool.false_eq_true, if_false]
  rw [h, record_next (by rw [landBytes_trace]; exact hz), landBytes_trace]

theorem actFinish_next {op : HostOp} {r : HostReturn} {s : State} (hop : currentOp s.trace = some op)
    (hz : hazardOf .ended s.trace = none) (hr : hostReturn op (sinceBegan s.trace) = some r) :
    actFinish s = .next { s with returned := some r, trace := .ended :: s.trace } := by
  simp only [actFinish, hop, hz, hr]

theorem actFinish_fault {op : HostOp} {f : Fault} {s : State} (hop : currentOp s.trace = some op)
    (hz : hazardOf .ended s.trace = some f) : actFinish s = .fault f := by
  simp only [actFinish, hop, hz]

theorem actChipSets_next {a : Nat} {v : Byte} {s : State} (ha : a < registerCount) :
    actChipSets a v s = .next (chipChange a v s) := by
  simp only [actChipSets, inRegisterSpace, decide_eq_true (Nat.succ_le_of_lt ha), if_true]

/-! ## Steps and runs -/

/-- With nothing to come, the codec evaluates the word at its input. -/
theorem step_idle {s : State} (h : s.agenda = []) : step s = exec (decode s.command) s := by
  simp only [step, h, evaluateInput]

/-- With an action to come, the action is done. -/
theorem step_act {s : State} {a : ControllerAction} {rest : List ControllerAction} (h : s.agenda = a :: rest) :
    step s = act a { s with agenda := rest } := by
  simp only [step, h]

/-- A run of one step more. -/
theorem run_succ {k : Nat} {s t : State} {o : Host.Outcome State Fault Refusal} (h : step s = .next t)
    (hr : Host.Core.run Sys2Proof.core k t = o) : Host.Core.run Sys2Proof.core (k + 1) s = o := by
  simp only [Host.Core.run]
  rw [show Sys2Proof.core.step s = .next t from h]
  exact hr

/-- A run after a run. -/
theorem run_add {j k : Nat} {s t : State} {o : Host.Outcome State Fault Refusal}
    (h : Host.Core.run Sys2Proof.core j s = .next t) (hr : Host.Core.run Sys2Proof.core k t = o) :
    Host.Core.run Sys2Proof.core (k + j) s = o := by
  induction j generalizing s with
  | zero =>
    simp only [Host.Core.run] at h
    cases h
    exact hr
  | succ j ih =>
    simp only [Host.Core.run] at h
    cases hs : Sys2Proof.core.step s with
    | next u =>
      rw [hs] at h
      exact run_succ hs (ih h)
    | fault f => rw [hs] at h; cases h
    | refused r => rw [hs] at h; cases h

end Sys2Proof.Laws
end

