-- ==== Sys2Proof/Laws/Decode.lean ====
section
/-! SUPPORT. The fields of a packed command word, and of the flag operand (spec/30_encoding.md R60, R73). -/

namespace Sys2Proof.Laws

open Sys2Proof

section Pack

variable (op f : Nibble) (a0 a1 a2 a3 a4 a5 a6 : Byte)

theorem opField_packCommand : opField (packCommand op f a0 a1 a2 a3 a4 a5 a6) = op := by
  ext i hi
  simp only [opField, packCommand, BitVec.getElem_extractLsb', BitVec.getLsbD_append]
  interval_cases i <;> simp

theorem flagField_packCommand : flagField (packCommand op f a0 a1 a2 a3 a4 a5 a6) = f := by
  ext i hi
  simp only [flagField, packCommand, BitVec.getElem_extractLsb', BitVec.getLsbD_append]
  interval_cases i <;> simp

theorem operandLane0_packCommand : operandLane (packCommand op f a0 a1 a2 a3 a4 a5 a6) 0 = a0 := by
  ext i hi
  simp only [operandLane, packCommand, BitVec.getElem_extractLsb', BitVec.getLsbD_append]
  interval_cases i <;> simp

theorem operandLane1_packCommand : operandLane (packCommand op f a0 a1 a2 a3 a4 a5 a6) 1 = a1 := by
  ext i hi
  simp only [operandLane, packCommand, BitVec.getElem_extractLsb', BitVec.getLsbD_append]
  interval_cases i <;> simp

theorem operandLane2_packCommand : operandLane (packCommand op f a0 a1 a2 a3 a4 a5 a6) 2 = a2 := by
  ext i hi
  simp only [operandLane, packCommand, BitVec.getElem_extractLsb', BitVec.getLsbD_append]
  interval_cases i <;> simp

theorem operandLane3_packCommand : operandLane (packCommand op f a0 a1 a2 a3 a4 a5 a6) 3 = a3 := by
  ext i hi
  simp only [operandLane, packCommand, BitVec.getElem_extractLsb', BitVec.getLsbD_append]
  interval_cases i <;> simp

theorem operandLane4_packCommand : operandLane (packCommand op f a0 a1 a2 a3 a4 a5 a6) 4 = a4 := by
  ext i hi
  simp only [operandLane, packCommand, BitVec.getElem_extractLsb', BitVec.getLsbD_append]
  interval_cases i <;> simp

theorem operandLane5_packCommand : operandLane (packCommand op f a0 a1 a2 a3 a4 a5 a6) 5 = a5 := by
  ext i hi
  simp only [operandLane, packCommand, BitVec.getElem_extractLsb', BitVec.getLsbD_append]
  interval_cases i <;> simp

theorem operandLane6_packCommand : operandLane (packCommand op f a0 a1 a2 a3 a4 a5 a6) 6 = a6 := by
  ext i hi
  simp only [operandLane, packCommand, BitVec.getElem_extractLsb', BitVec.getLsbD_append]
  interval_cases i <;> simp

/-- Decoding a packed word reads back the fields it was packed from. -/
theorem decode_packCommand :
    decode (packCommand op f a0 a1 a2 a3 a4 a5 a6) = decodeFields op f a0 a1 a2 a3 a4 a5 a6 := by
  simp only [decode, opField_packCommand, flagField_packCommand, operandLane0_packCommand,
    operandLane1_packCommand, operandLane2_packCommand, operandLane3_packCommand, operandLane4_packCommand,
    operandLane5_packCommand, operandLane6_packCommand]

end Pack

/-- A word is packed from its own fields. -/
theorem packCommand_fields (w : Word) :
    packCommand (opField w) (flagField w) (operandLane w 0) (operandLane w 1) (operandLane w 2)
      (operandLane w 3) (operandLane w 4) (operandLane w 5) (operandLane w 6) = w := by
  apply BitVec.eq_of_getLsbD_eq
  intro i hi
  simp only [packCommand, operandLane, flagField, opField, BitVec.getLsbD_append, BitVec.getLsbD_extractLsb']
  interval_cases i <;> simp

theorem flagBit0_flag1 (b : Bool) : flagBit (flag1 b) 0 = b := by cases b <;> rfl

theorem flagBit0_flag2 (b1 b0 : Bool) : flagBit (flag2 b1 b0) 0 = b0 := by cases b1 <;> cases b0 <;> rfl

theorem flagBit1_flag2 (b1 b0 : Bool) : flagBit (flag2 b1 b0) 1 = b1 := by cases b1 <;> cases b0 <;> rfl

theorem flagBit0_flagCoded (c : BitVec 2) (b : Bool) : flagBit (flagCoded c b) 0 = b := by
  revert c b; decide

theorem flagCode_flagCoded (c : BitVec 2) (b : Bool) : flagCode (flagCoded c b) = c := by
  revert c b; decide

end Sys2Proof.Laws
end

