-- ==== Sys2Proof/Laws/PerInstr.lean ====
section
/-! SUPPORT. Per instruction: the operation code of its encoding (spec/30_encoding.md R63, R70). -/

namespace Sys2Proof.Laws.OperationCode

open Sys2Proof

/-- The encoding of an instruction holds its operation code in bits 63:60. -/
def Statement (i : Instr) : Prop := opField (encode i) = opcode i

theorem bcdEnc (v : Byte) : Statement (.bcdEnc v) := Laws.opField_packCommand ..

theorem bcdDec (b : Byte) : Statement (.bcdDec b) := Laws.opField_packCommand ..

theorem timePack (sec min hour day wday month year : Byte) : Statement (.timePack sec min hour day wday month year) := Laws.opField_packCommand ..

theorem timeUnpack (b0 b1 b2 b3 b4 b5 b6 : Byte) : Statement (.timeUnpack b0 b1 b2 b3 b4 b5 b6) := Laws.opField_packCommand ..

theorem c1StopWr (c1 : Byte) (s : Bool) : Statement (.c1StopWr c1 s) := Laws.opField_packCommand ..

theorem alarmPack (mask : Nibble) (min hour day wday : Byte) : Statement (.alarmPack mask min hour day wday) := Laws.opField_packCommand ..

theorem c2AieWr (c2 : Byte) (ie : Bool) : Statement (.c2AieWr c2 ie) := Laws.opField_packCommand ..

theorem c2AfGet (c2 : Byte) : Statement (.c2AfGet c2) := Laws.opField_packCommand ..

theorem c2AfClr (c2 : Byte) : Statement (.c2AfClr c2) := Laws.opField_packCommand ..

theorem c2TmrCfg (c2 : Byte) (rep ie : Bool) : Statement (.c2TmrCfg c2 rep ie) := Laws.opField_packCommand ..

theorem tctlPack (en : Bool) (src : BitVec 2) : Statement (.tctlPack en src) := Laws.opField_packCommand ..

theorem tcntPack (count : Byte) : Statement (.tcntPack count) := Laws.opField_packCommand ..

theorem c2TfGet (c2 : Byte) : Statement (.c2TfGet c2) := Laws.opField_packCommand ..

theorem c2TfClr (c2 : Byte) : Statement (.c2TfClr c2) := Laws.opField_packCommand ..

theorem clkoutPack (en : Bool) (freq : BitVec 2) : Statement (.clkoutPack en freq) := Laws.opField_packCommand ..

theorem reserved : Statement (.reserved) := Laws.opField_packCommand ..

end Sys2Proof.Laws.OperationCode
end

