-- ==== Sys2Proof/Tests/Slice0.lean ====
section
/-! SUPPORT. Tests: well-formedness, decoding of words written out from spec/30_encoding.md R70, one step of each
instruction on a vector of spec/95_test_vectors.md, one step of the controller, and a witness for the hypotheses of
each statement. -/

namespace Sys2Proof.Tests

open Sys2Proof Sys2Proof.Machine Sys2Proof.Safety

/-! ## Well-formedness: the check refuses the one instruction R71 gives no syntax -/

theorem test_reserved_is_ill_formed : Instr.wellFormed .reserved = false := by decide

theorem test_tctl_is_well_formed : Instr.wellFormed (.tctlPack true 3#2) = true := by decide

theorem test_line_value_does_not_fit : AsmLine.wellFormed ⟨.bcdEnc, [256]⟩ = false := by decide

theorem test_line_flag_does_not_fit : AsmLine.wellFormed ⟨.c1StopWr, [0, 2]⟩ = false := by decide

theorem test_line_code_does_not_fit : AsmLine.wellFormed ⟨.clkoutPack, [1, 4]⟩ = false := by decide

theorem test_line_mask_does_not_fit : AsmLine.wellFormed ⟨.alarmPack, [16, 0, 0, 0, 0]⟩ = false := by decide

theorem test_line_too_few_operands : AsmLine.wellFormed ⟨.c2AieWr, [0]⟩ = false := by decide

theorem test_line_too_many_operands : AsmLine.wellFormed ⟨.tctlOff, [0]⟩ = false := by decide

/-! ## Decoding: words written out from the patterns of R70 -/

theorem test_decode_bcd_enc :
    decode 0b0001_1111_00111011_11111111_11111111_11111111_11111111_11111111_11111111#64 = .bcdEnc 59 := by decide

theorem test_decode_bcd_dec :
    decode 0b0010_0000_01011001_00000000_00000000_00000000_00000000_00000000_00000000#64 = .bcdDec 0x59 := by decide

theorem test_decode_time_pack :
    decode 0b0011_0000_00000001_00000010_00000011_00000100_00000101_00000110_01111100#64 = .timePack 1 2 3 4 5 6 124 := by decide

theorem test_decode_time_unpack :
    decode 0b0100_1001_00000001_00000010_00000011_00000100_00000101_10000110_00100100#64 = .timeUnpack 1 2 3 4 5 0x86 0x24 := by decide

theorem test_decode_c1_stop_wr :
    decode 0b0101_1110_00100000_00000000_00000000_00000000_00000000_00000000_00000000#64 = .c1StopWr 0x20 false := by decide

theorem test_decode_alarm_pack :
    decode 0b0110_0011_00011110_00000111_01100011_00001001_11111111_11111111_11111111#64 = .alarmPack 0b0011 30 7 99 9 := by decide

theorem test_decode_c2_aie_wr :
    decode 0b0111_0001_00001000_00000000_00000000_00000000_00000000_00000000_00000000#64 = .c2AieWr 0x08 true := by decide

theorem test_decode_c2_af_get :
    decode 0b1000_0000_00001010_00000000_00000000_00000000_00000000_00000000_00000000#64 = .c2AfGet 0x0A := by decide

theorem test_decode_c2_af_clr :
    decode 0b1001_0000_00001110_00000000_00000000_00000000_00000000_00000000_00000000#64 = .c2AfClr 0x0E := by decide

theorem test_decode_c2_tmr_cfg :
    decode 0b1010_1110_00001110_00000000_00000000_00000000_00000000_00000000_00000000#64 = .c2TmrCfg 0x0E true false := by decide

theorem test_decode_tctl_pack :
    decode 0b1011_1101_00000000_00000000_00000000_00000000_00000000_00000000_00000000#64 = .tctlPack true 2 := by decide

theorem test_decode_tcnt_pack :
    decode 0b1100_0000_11001000_00000000_00000000_00000000_00000000_00000000_00000000#64 = .tcntPack 200 := by decide

theorem test_decode_c2_tf_get :
    decode 0b1101_0000_00011111_00000000_00000000_00000000_00000000_00000000_00000000#64 = .c2TfGet 0x1F := by decide

theorem test_decode_c2_tf_clr :
    decode 0b1110_0000_00011111_00000000_00000000_00000000_00000000_00000000_00000000#64 = .c2TfClr 0x1F := by decide

theorem test_decode_clkout_pack :
    decode 0b1111_1110_00000000_00000000_00000000_00000000_00000000_00000000_00000000#64 = .clkoutPack false 3 := by decide

theorem test_decode_reserved :
    decode 0b0000_1111_11111111_11111111_11111111_11111111_11111111_11111111_11111111#64 = .reserved := by decide

theorem test_decode_bytes_in_order :
    decodeBytes [0x31, 0x01, 0x02, 0x03, 0x04, 0x05, 0x06, 0x07] = .ok (.timePack 1 2 3 4 5 6 7) := rfl

theorem test_decode_bytes_too_short : decodeBytes [0x10, 0x3B] = .error (.tooShort 2) := rfl

theorem test_decode_bytes_too_long : decodeBytes (List.replicate 9 0#8) = .error (.tooLong 9) := rfl

theorem test_decode_table_word : decodeTableWord 64 0xA30E000000000000 = some (.c2TmrCfg 0x0E true true) := by
  decide

theorem test_encode_example_of_R73 : encode (.timePack 0 0 0 15 6 6 124) = 0x300000000F06067C#64 := by decide

/-! ## One step of each instruction: vectors of spec/95_test_vectors.md L2 -/

/-- The next step from a state that drives a word is a next state that differs in the result word alone, which is the
given one. -/
def stepGives (cw rw : Word) : Bool :=
  match step (State.reset.withFetchWord 64 cw.toNat) with
  | .next t => t == { State.reset with command := cw, result := rw }
  | .fault _ => false
  | .refused _ => false

/-- V-ENC-9. -/
theorem test_step_bcd_enc_1 : stepGives 0x10FF000000000000#64 0x0095000000000000#64 = true := by decide

/-- V-ENC-10. -/
theorem test_step_bcd_enc_2 : stepGives 0x1F3BFFFFFFFFFFFF#64 0x0059000000000000#64 = true := by decide

/-- V-DEC-7. -/
theorem test_step_bcd_dec_1 : stepGives 0x201F000000000000#64 0x0019000000000000#64 = true := by decide

/-- V-DEC-10. -/
theorem test_step_bcd_dec_2 : stepGives 0x20FF000000000000#64 0x00A5000000000000#64 = true := by decide

/-- V-TP-5. -/
theorem test_step_time_pack_1 : stepGives 0x300000000F06067C#64 0x0000000015068624#64 = true := by decide

/-- V-TP-9. -/
theorem test_step_time_pack_2 : stepGives 0x30000000010001FF#64 0x00000000010081F5#64 = true := by decide

/-- V-TU-6. -/
theorem test_step_time_unpack_1 : stepGives 0x40000000010081FF#64 0x2000000001000109#64 = true := by decide

/-- V-TU-2. -/
theorem test_step_time_unpack_2 : stepGives 0x40D9592331069299#64 0x4000000000000000#64 = true := by decide

/-- V-C1-4. -/
theorem test_step_c1_stop_wr_1 : stepGives 0x51DF000000000000#64 0x00FF000000000000#64 = true := by decide

/-- V-C1-7. -/
theorem test_step_c1_stop_wr_2 : stepGives 0x5E20000000000000#64 0x0000000000000000#64 = true := by decide

/-- V-AL-1. -/
theorem test_step_alarm_pack_1 : stepGives 0x631E076309000000#64 0x0030078080000000#64 = true := by decide

/-- V-AL-6. -/
theorem test_step_alarm_pack_2 : stepGives 0x68FFFFFF06000000#64 0x0080808006000000#64 = true := by decide

/-- V-AIE-6. -/
theorem test_step_c2_aie_wr_1 : stepGives 0x710C000000000000#64 0x000E000000000000#64 = true := by decide

/-- V-AIE-3. -/
theorem test_step_c2_aie_wr_2 : stepGives 0x70FF000000000000#64 0x00FD000000000000#64 = true := by decide

/-- V-AFG-2. -/
theorem test_step_c2_af_get_1 : stepGives 0x80F7000000000000#64 0x0000000000000000#64 = true := by decide

/-- V-AFG-3. -/
theorem test_step_c2_af_get_2 : stepGives 0x8008000000000000#64 0x2000000000000000#64 = true := by decide

/-- V-AFC-2. -/
theorem test_step_c2_af_clr_1 : stepGives 0x90FF000000000000#64 0x00F7000000000000#64 = true := by decide

/-- V-TC2-1. -/
theorem test_step_c2_tmr_cfg_1 : stepGives 0xA30E000000000000#64 0x001B000000000000#64 = true := by decide

/-- V-TC2-6. -/
theorem test_step_c2_tmr_cfg_2 : stepGives 0xA2E0000000000000#64 0x00F0000000000000#64 = true := by decide

/-- V-TCT-2. -/
theorem test_step_tctl_pack_1 : stepGives 0xB600000000000000#64 0x0000000000000000#64 = true := by decide

/-- V-TCT-5. -/
theorem test_step_tctl_pack_2 : stepGives 0xB500000000000000#64 0x0082000000000000#64 = true := by decide

/-- V-TCN-3. -/
theorem test_step_tcnt_pack_1 : stepGives 0xC063000000000000#64 0x0063000000000000#64 = true := by decide

/-- V-TFG-2. -/
theorem test_step_c2_tf_get_1 : stepGives 0xD0FB000000000000#64 0x0000000000000000#64 = true := by decide

/-- V-TFG-3. -/
theorem test_step_c2_tf_get_2 : stepGives 0xD004000000000000#64 0x2000000000000000#64 = true := by decide

/-- V-TFC-2. -/
theorem test_step_c2_tf_clr_1 : stepGives 0xE0FF000000000000#64 0x00FB000000000000#64 = true := by decide

/-- V-CK-4. -/
theorem test_step_clkout_pack_1 : stepGives 0xF600000000000000#64 0x0003000000000000#64 = true := by decide

/-- V-CK-6. -/
theorem test_step_clkout_pack_2 : stepGives 0xF300000000000000#64 0x0081000000000000#64 = true := by decide

/-- V-IL-2. -/
theorem test_step_reserved_1 : stepGives 0x0FFFFFFFFFFFFFFF#64 0x8000000000000000#64 = true := by decide

/-! ## Assembly text: the syntax column of spec/95_test_vectors.md -/

theorem test_assemble_decimal :
    assembleText "TIME_PACK 0, 0, 0, 15, 6, 6, 124" = some 0x300000000F06067C#64 := by decide

theorem test_assemble_binary_mask :
    assembleText "ALARM_PACK 0b0011, 30, 7, 99, 9" = some 0x631E076309000000#64 := by decide

theorem test_assemble_pseudo : assembleText "C1_STOP_SET 0xDF" = some 0x51DF000000000000#64 := by decide

theorem test_assemble_refuses_a_value_that_does_not_fit : assembleText "BCD_ENC 256" = none := by decide

theorem test_disassemble_prints_the_base :
    disassembleText 0x5FDF000000000000#64 = some "C1_STOP_WR 223, 1".toList := by decide

/-! ## The controller: one step -/

/-- A simulated register store with the given registers, trace and agenda. -/
def storeState (registers : Memory) (trace : List BusEvent) (agenda : List ControllerAction) : State :=
  { State.reset with registers := registers, peer := .simulatedStore, trace := trace, agenda := agenda }

/-- The fault of a step, if it ends in one. -/
def faultOf (s : State) : Option Fault :=
  match step s with
  | .fault f => some f
  | .next _ => none
  | .refused _ => none

/-- The registers after a step that ends in a next state. -/
def registersAfter (s : State) : Option Memory :=
  match step s with
  | .next t => some t.registers
  | .fault _ => none
  | .refused _ => none

/-- `setAlarm` with its control2 byte read, AIE cleared and written. -/
def alarmTrace : List BusEvent :=
  [ .evaluated 0x631E076309000000#64 0x0030078080000000#64, .wrote 0x01 [0x0C#8],
    .evaluated 0x700C000000000000#64 0x000C000000000000#64, .didRead 0x01 [0x0C#8],
    .began (.setAlarm ⟨0b0011#4, 30, 7, 99, 9⟩ true) ]

/-- `setDateTime` with STOP written 1 and the fields packed. -/
def timeTrace : List BusEvent :=
  [ .evaluated 0x300000000F06067C#64 0x0000000015068624#64, .wrote 0x00 [0x28#8],
    .evaluated 0x5108000000000000#64 0x0028000000000000#64, .didRead 0x00 [0x08#8],
    .began (.setDateTime ⟨0, 0, 0, 15, 6, 6, 124⟩) ]

/-- `setTimer` with timer-control, control2 and the counter written. -/
def timerTrace : List BusEvent :=
  [ .evaluated 0xB500000000000000#64 0x0082000000000000#64, .wrote 0x0F [0x64#8],
    .evaluated 0xC064000000000000#64 0x0064000000000000#64, .wrote 0x01 [0x00#8],
    .evaluated 0xA004000000000000#64 0x0000000000000000#64, .didRead 0x01 [0x04#8], .wrote 0x0E [0x00#8],
    .evaluated 0xB000000000000000#64 0x0000000000000000#64, .began (.setTimer ⟨true, false, .second1, 100, false⟩) ]

def timeLanes : List Operand :=
  [.result 0 0, .result 0 1, .result 0 2, .result 0 3, .result 0 4, .result 0 5, .result 0 6]

/-- P1 step 5: the time block lands in ascending order. -/
theorem test_write_time_block :
    registersAfter (storeState [(0, 0x28)] timeTrace [.wr 2 timeLanes]) =
      some [(0, 0x28), (2, 0x00), (3, 0x00), (4, 0x00), (5, 0x15), (6, 0x06), (7, 0x86), (8, 0x24)] := by decide

/-- R242: the same write with STOP last written 0. -/
theorem test_write_time_block_without_stop :
    faultOf (storeState [] (.wrote 0x00 [0x08#8] :: timeTrace) [.wr 2 timeLanes]) = some .stopBracketBroken := by
  decide

/-- R242: the bracket takes two steps; STOP set by the transaction itself is none. -/
theorem test_write_time_block_with_its_own_stop :
    faultOf (storeState [] [] [.wr 0 ([0x20#8, 0, 0, 0, 0, 1, 0, 1, 0].map .lit)]) = some .stopBracketBroken := by
  decide

/-- R242: not the whole block in one transaction. -/
theorem test_write_part_of_time_block :
    faultOf (storeState [] timeTrace [.wr 2 [.result 0 0]]) = some .stopBracketBroken := by decide

/-- P2 step 5. -/
theorem test_write_alarm_block :
    registersAfter (storeState [(1, 0x0C)] alarmTrace [.wr 9 [.result 0 0, .result 0 1, .result 0 2, .result 0 3]]) =
      some [(1, 0x0C), (9, 0x30), (10, 0x07), (11, 0x80), (12, 0x80)] := by decide

/-- R243: AIE last written 1. -/
theorem test_write_alarm_block_with_interrupt_on :
    faultOf (storeState [] (.wrote 0x01 [0x0E#8] :: alarmTrace) [.wr 9 [.result 0 0]]) = some .alarmOrderBroken := by
  decide

/-- R244: the enabling write is the last. -/
theorem test_write_after_timer_enable :
    faultOf (storeState [] (.wrote 0x0E [0x82#8] :: timerTrace) [.wr 0x0F [.lit 7]]) = some .timerOrderBroken := by
  decide

/-- P3 step 5. -/
theorem test_timer_enable :
    registersAfter (storeState [] timerTrace [.wr 0x0E [.result 0 0]]) = some [(0x0E, 0x82)] := by decide

/-- R245: a control byte that was not read for this operation. -/
theorem test_stale_control_byte :
    faultOf (storeState [] [.didRead 0x01 [0x0E#8], .began .clearAlarmFlag] [.ex 0x9#4 0#4 [.lit 0x0F]]) =
      some .staleControlByte := by decide

/-- P4 step 3: a controller fault. -/
theorem test_controller_issues_reserved_code :
    faultOf (storeState [] [] [.ex 0x0#4 0#4 [.lit 0x59]]) = some .illegalCommandIssued := by decide

/-- R247. -/
theorem test_errored_result_used :
    faultOf (storeState [] [.evaluated 0x40B0451201030124#64 0x4000000000000000#64, .began .getDateTime]
      [.wr 0x0F [.result 0 0]]) = some .erroredResultUsed := by decide

/-- R248. -/
theorem test_operations_interleaved :
    faultOf (storeState [] timeTrace [.start .getAlarmFlag]) = some .operationsInterleaved := by decide

/-- R249. -/
theorem test_silent_bus : faultOf { storeState [] [] [.rd 0 1] with bus := .silent } = some .unansweredRead := by decide

/-- P3 step 10: the chip sets TF. -/
theorem test_chip_sets_tf : registersAfter (storeState [(1, 0x11)] [] [.chipSets 1 0x15]) = some [(1, 0x15)] := by
  decide

/-- R35: TIE, AIE and TI/TP are the controller's. -/
theorem test_chip_leaves_the_controllers_bits :
    registersAfter (storeState [(1, 0x11)] [] [.chipSets 1 0x06]) = some [(1, 0x15)] := by decide

/-- R25, R131: the clock is halted while STOP is 1, and runs while it is 0. -/
theorem test_clock_counts_only_while_running :
    registersAfter (storeState [(0, 0x20), (3, 0x59)] [] [.chipSets 3 0x00]) = some [(0, 0x20), (3, 0x59)] ∧
      registersAfter (storeState [(0, 0x00), (3, 0x59)] [] [.chipSets 3 0x00]) = some [(0, 0x00), (3, 0x00)] := by
  decide

/-- R247: a command after the error gives no field back. -/
theorem test_error_stands_after_another_command :
    (match step (storeState [] [ .evaluated 0x103B000000000000#64 0x0059000000000000#64,
        .evaluated 0x40B0451201030124#64 0x4000000000000000#64, .began .getDateTime ] [.finish]) with
      | .next t => t.returned
      | .fault _ => none
      | .refused _ => none) = some .clockIntegrityError := by decide

/-- R41: no source says what lies above 0x0F. -/
theorem test_read_past_last_register : faultOf (storeState [] [] [.rd 0x0F 2]) = some .noSuchRegister := by decide

/-- R235, P4 step 2: the error arm. -/
theorem test_get_date_time_returns_clock_integrity_error :
    hostReturn .getDateTime [.evaluated 0x103B000000000000#64 0x0059000000000000#64,
      .evaluated 0x40B0451201030124#64 0x4000000000000000#64] = some .clockIntegrityError := by decide

/-- R235, P1: the year is nine bits. -/
theorem test_get_date_time_returns_the_fields :
    hostReturn .getDateTime [.evaluated 0x40000000010081FF#64 0x2000000001000109#64] =
      some (.dateTime 0 0 0 1 0 1 265#9) := by decide

/-! ## Witnesses for the hypotheses of the statements -/

theorem witness_ignored_bits :
    (0x1F3BFFFFFFFFFFFF#64 : Word) &&& usedBits (opField 0x1F3BFFFFFFFFFFFF#64) =
      0x103B000000000000#64 &&& usedBits (opField 0x1F3BFFFFFFFFFFFF#64) := by decide

theorem witness_byte_string_of_wrong_length : ([0x10#8] : List Byte).length ≠ 8 := by decide

theorem witness_step_runs :
    State.reset.agenda = [] ∧ decode State.reset.command = .reserved ∧ ∃ t, step State.reset = .next t :=
  ⟨rfl, by decide, _, rfl⟩

theorem witness_two_states_one_command :
    State.reset.agenda = [] ∧ (storeState [(0, 8)] timeTrace []).agenda = [] ∧
      State.reset.command = (storeState [(0, 8)] timeTrace []).command := ⟨rfl, rfl, rfl⟩

theorem witness_frame : ∃ t, exec (.timePack 0 0 0 15 6 6 124) State.reset = .next t := ⟨_, rfl⟩

theorem witness_flag_of_af_get : ∃ t, exec (.c2AfGet 0x08) State.reset = .next t ∧ resultFlag t.result = true :=
  ⟨_, rfl, by decide⟩

theorem witness_flag_of_tf_get : ∃ t, exec (.c2TfGet 0x04) State.reset = .next t ∧ resultFlag t.result = true :=
  ⟨_, rfl, by decide⟩

theorem witness_flag_of_unpack :
    ∃ t, exec (.timeUnpack 0 0 0 1 0 0x81 0xF6) State.reset = .next t ∧ resultFlag t.result = true :=
  ⟨_, rfl, by decide⟩

theorem witness_exception_then_command :
    ∃ t u, exec (.timeUnpack 0x80 0 0 0 0 0 0) State.reset = .next t ∧ resultStatus t.result ≠ 0#2 ∧
      exec (.bcdEnc 59) t = .next u := ⟨_, _, rfl, by decide, rfl⟩

theorem witness_illegal_then_command :
    ∃ t u, exec .reserved State.reset = .next t ∧ resultStatus t.result ≠ 0#2 ∧ exec (.bcdDec 0x59) t = .next u :=
  ⟨_, _, rfl, by decide, rfl⟩

theorem witness_word_of_every_operation_code : ∀ op : Nibble, opField (op ++ 0#60) = op := by decide

theorem witness_encoder_range :
    (159#8 : Byte).toNat < 160 ∧ 160 ≤ (160#8 : Byte).toNat ∧ 160 ≤ (255#8 : Byte).toNat ∧ enc 0#8 = enc 0#8 := by
  decide

theorem witness_packed_field_bounds :
    80 ≤ (80#8 : Byte).toNat ∧ (159#8 : Byte).toNat < 160 ∧ (79#8 : Byte).toNat < 80 := by decide

theorem witness_voltage_low_both_ways :
    (0x7F#8 : Byte).getLsbD 7 = false ∧ (0x80#8 : Byte).getLsbD 7 = true := by decide

theorem witness_greatest_and_least_date_time :
    validDateTime ⟨59, 59, 23, 31, 6, 12, 199⟩ = true ∧ validDateTime ⟨0, 0, 0, 1, 0, 1, 0⟩ = true := by decide

theorem witness_alarm_field_off_and_on :
    (0b0011#4 : Nibble).getLsbD 2 = false ∧ (0b0011#4 : Nibble).getLsbD 1 = (0b0010#4 : Nibble).getLsbD 1 := by decide

theorem witness_assembly :
    disassemble (.tctlPack true 3#2) = some ⟨.tctlPack, [1, 3]⟩ ∧
      assemble ⟨.clkoutOff, [3]⟩ = some (.clkoutPack false 3#2) ∧ (operandWidths .clkoutOff)[0]? = some 2 := by decide

theorem witness_invariant_step :
    inv (storeState [(0, 0x28)] timeTrace [.wr 2 timeLanes]) = true ∧
      ∃ t, step (storeState [(0, 0x28)] timeTrace [.wr 2 timeLanes]) = .next t := ⟨by decide, _, rfl⟩

theorem witness_invariant_idle_step : inv State.reset = true ∧ ∃ t, step State.reset = .next t := ⟨by decide, _, rfl⟩

theorem witness_read_up_to_the_last_register_and_past :
    (storeState [] [] [.rd 9 7]).bus = .answering ∧ 9 + 7 = 16 ∧ 10 + 7 = 17 ∧
      (∃ t, step (storeState [] [] [.rd 9 7]) = .next t) ∧
      step (storeState [] [] [.rd 10 7]) = .fault .noSuchRegister := ⟨rfl, rfl, rfl, ⟨_, rfl⟩, rfl⟩

/-- The real chip: the named bits of hours are 5:0 (R28). -/
theorem witness_read_of_a_real_chip :
    ({ storeState [(4, 0x23)] [] [.rd 4 1] with peer := .realChip } : State).bus = .answering ∧
      (freeReadBits 4).getLsbD 5 = false ∧ (freeReadBits 4).getLsbD 6 = true := ⟨rfl, by decide, by decide⟩

/-- U5: the real chip gives the unnamed bits of control2 as it holds them. -/
theorem test_real_chip_gives_control2_as_held (d : Byte) : readByte .realChip 1 0xE0#8 d = 0xE0#8 :=
  Laws.readByte_control .realChip 1 0xE0#8 d (by decide)

theorem witness_write_lands :
    Memory.wf (storeState [(0, 0x28)] timeTrace [.wr 2 timeLanes]).registers = true ∧
      operandBytes timeTrace timeLanes = some [0x00, 0x00, 0x00, 0x15, 0x06, 0x86, 0x24] ∧
      (storeState [(0, 0x28)] timeTrace [.wr 2 timeLanes]).peer = .simulatedStore ∧
      ∃ t, step (storeState [(0, 0x28)] timeTrace [.wr 2 timeLanes]) = .next t :=
  ⟨by decide, by decide, rfl, _, rfl⟩

theorem witness_evaluation :
    ∃ t, step (storeState [] [.didRead 1 [0x0E], .began .clearAlarmFlag] [.ex 0x9#4 0#4 [.read 0]]) = .next t :=
  ⟨_, rfl⟩

theorem witness_reserved_issued :
    (storeState [] [] [.ex 0x0#4 0xF#4 [.lit 0x59]]).agenda = .ex 0x0#4 0xF#4 ([0x59#8].map .lit) :: [] := rfl

theorem witness_time_block_write :
    operandBytes timeTrace timeLanes = some [0x00, 0x00, 0x00, 0x15, 0x06, 0x86, 0x24] ∧
      (6 < 7 ∧ 2 ≤ 2 + 6 ∧ 2 + 6 ≤ 8) ∧ (0 < 7 ∧ 2 ≤ 2 + 0 ∧ 2 + 0 ≤ 8) ∧
      ∃ t, step (storeState [] timeTrace [.wr 2 timeLanes]) = .next t :=
  ⟨by decide, by decide, by decide, _, rfl⟩

/-- A transaction from control1 over the whole time block, STOP having been set before it. -/
theorem witness_time_block_write_from_control1 :
    (8 < 9 ∧ 2 ≤ 0 + 8 ∧ 0 + 8 ≤ 8) ∧
      ∃ t, step (storeState [] [.wrote 0 [0x20#8]] [.wr 0 ([0x20#8, 0, 0, 0, 0, 1, 0, 1, 0].map .lit)]) = .next t :=
  ⟨by decide, _, rfl⟩

theorem witness_time_operation_ends :
    (8, 0x24#8) ∈ writesOf (sinceBegan (.wrote 0 [0x08#8] :: .wrote 2 [0, 0, 0, 0x15, 6, 0x86, 0x24#8] :: timeTrace)) ∧
      (∃ t, step (storeState [] (.wrote 0 [0x08#8] :: .wrote 2 [0, 0, 0, 0x15, 6, 0x86, 0x24#8] :: timeTrace)
        [.finish]) = .next t) ∧
      faultOf (storeState [] (.wrote 2 [0, 0, 0, 0x15, 6, 0x86, 0x24#8] :: timeTrace) [.finish]) =
        some .stopBracketBroken := ⟨by decide, ⟨_, rfl⟩, by decide⟩

theorem witness_alarm_operation_ends :
    currentOp (.wrote 1 [0x0E#8] :: .wrote 9 [0x30, 7, 0x80, 0x80#8] :: alarmTrace) =
        some (.setAlarm ⟨0b0011#4, 30, 7, 99, 9⟩ true) ∧
      (∃ t, step (storeState [] (.wrote 1 [0x0E#8] :: .wrote 9 [0x30, 7, 0x80, 0x80#8] :: alarmTrace) [.finish]) =
        .next t) ∧
      faultOf (storeState [] (.wrote 9 [0x30, 7, 0x80, 0x80#8] :: alarmTrace) [.finish]) = some .alarmOrderBroken :=
  ⟨rfl, ⟨_, rfl⟩, by decide⟩

theorem witness_alarm_block_write :
    currentOp alarmTrace = some (.setAlarm ⟨0b0011#4, 30, 7, 99, 9⟩ true) ∧
      operandBytes alarmTrace [.result 0 3] = some [0x80] ∧ (0 < 1 ∧ 9 ≤ 12 + 0 ∧ 12 + 0 ≤ 12) ∧
      ∃ t, step (storeState [] alarmTrace [.wr 12 [.result 0 3]]) = .next t :=
  ⟨rfl, by decide, by decide, _, rfl⟩

theorem witness_timer_enabling_write :
    currentOp timerTrace = some (.setTimer ⟨true, false, .second1, 100, false⟩) ∧
      operandBytes timerTrace [.result 0 0] = some [0x82] ∧ (0x82#8 : Byte).getLsbD 7 = true ∧
      (0x0E, 0x00#8) ∈ writesBefore 0x0E [0x82] 0 (writesOf (sinceBegan timerTrace)) ∧ ([0x82#8] : List Byte)[0]? = some 0x82 ∧
      ∃ t, step (storeState [] timerTrace [.wr 0x0E [.result 0 0]]) = .next t :=
  ⟨rfl, by decide, by decide, by decide, rfl, _, rfl⟩

theorem witness_timer_first_write :
    writesBefore 0x0E [0x00] 0 (writesOf (sinceBegan [.began (.setTimer ⟨true, false, .second1, 100, false⟩)])) = [] ∧
      ∃ t, step (storeState [] [.began (.setTimer ⟨true, false, .second1, 100, false⟩)] [.wr 0x0E [.lit 0x00]]) =
        .next t := ⟨rfl, _, rfl⟩

theorem witness_fresh_control_byte :
    controlAddress 0x9#4 = some 1 ∧
      ∃ t, step (storeState [] [.didRead 1 [0x0E], .began .clearAlarmFlag] [.ex 0x9#4 0#4 [.read 0]]) = .next t :=
  ⟨rfl, _, rfl⟩

theorem witness_kept_control_byte :
    controlAddress 0x7#4 = some 1 ∧
      ∃ t, step (storeState [] alarmTrace [.ex 0x7#4 1#4 [.result 1 0]]) = .next t := ⟨rfl, _, rfl⟩

/-- R245: the second C2_AIE_WR took the first one's byte and is the final one. -/
def secondAieTrace : List BusEvent :=
  [ .evaluated 0x710C000000000000#64 0x000E000000000000#64, .evaluated 0x700E000000000000#64 0x000C000000000000#64,
    .didRead 0x01 [0x0E#8], .began (.setAlarm ⟨0b0011#4, 30, 7, 99, 9⟩ true) ]

theorem test_no_aie_write_after_the_final_one :
    faultOf (storeState [] secondAieTrace [.ex 0x7#4 1#4 [.read 0]]) = some .staleControlByte := by decide

/-- R245: the exception is the first C2_AIE_WR's byte, not a later one's. -/
theorem test_final_aie_takes_the_first_byte :
    faultOf (storeState [] [ .evaluated 0x710E000000000000#64 0x000F000000000000#64,
        .evaluated 0x700E000000000000#64 0x000C000000000000#64, .didRead 0x01 [0x0E#8],
        .began (.setAlarm ⟨0b0011#4, 30, 7, 99, 9⟩ true) ] [.ex 0x7#4 1#4 [.result 0 0]]) =
      some .staleControlByte := by decide

/-- The exception taken: the byte 0x0C was not read. -/
theorem witness_final_aie_write :
    ∃ t, step (storeState [] secondAieTrace.tail [.ex 0x7#4 1#4 [.result 0 0]]) = .next t := ⟨_, rfl⟩

theorem witness_errored_result :
    (resultsOf (sinceBegan [.evaluated 0x4080000000000000#64 0x4000000000000000#64, .began .getDateTime]))[0]? =
        some 0x4000000000000000#64 ∧
      resultStatus 0x4000000000000000#64 ≠ 0#2 ∧
      (storeState [] [] [.ex 0x1#4 0#4 [.lit 1, .result 0 6]]).agenda =
        .ex 0x1#4 0#4 ([.lit 1] ++ .result 0 6 :: []) :: [] := ⟨rfl, by decide, rfl⟩

theorem witness_operation_in_progress_and_none :
    currentOp timeTrace = some (.setDateTime ⟨0, 0, 0, 15, 6, 6, 124⟩) ∧ currentOp (.ended :: timeTrace) = none := by
  decide

theorem witness_silent_and_failing_bus :
    ({ storeState [] [] [.rd 0 1] with bus := .silent } : State).bus = .silent ∧
      ({ storeState [] [] [.rd 0 1] with bus := .failing } : State).bus = .failing ∧
      (storeState [] [] [.rd 0 1]).agenda = .rd 0 1 :: [] := ⟨rfl, rfl, rfl⟩

theorem witness_write_on_a_silent_or_failing_bus :
    [Operand.lit 7#8].any (operandErrored []) = false ∧ operandBytes [] [.lit 7#8] = some [7#8] ∧
      BusCondition.silent ≠ .answering ∧ BusCondition.failing ≠ .answering := by decide

theorem witness_real_chip_control2_write :
    ({ storeState [] alarmTrace [.wr 1 [.lit 0x0C]] with peer := .realChip } : State).peer = .realChip ∧
      operandBytes alarmTrace [.lit 0x0C] = some [0x0C] ∧
      ∃ t, step { storeState [] alarmTrace [.wr 1 [.lit 0x0C]] with peer := .realChip } = .next t :=
  ⟨rfl, rfl, _, rfl⟩

/-- A store with every control register listed and a finished operation in its trace, and its agenda. -/
def hostState (agenda : List ControllerAction) : State :=
  storeState [(0, 0xFF), (1, 0xFF), (2, 0xB0)] (.ended :: timeTrace) agenda

theorem witness_host_operations (agenda : List ControllerAction) :
    (hostState agenda).peer = .simulatedStore ∧ (hostState agenda).bus = .answering ∧
      Memory.wf (hostState agenda).registers = true ∧ currentOp (hostState agenda).trace = none ∧
      (hostState agenda).agenda = agenda := ⟨rfl, rfl, rfl, rfl, rfl⟩

/-- The same of the real chip, with a valid date and time supplied. -/
theorem witness_host_operations_on_the_real_chip (agenda : List ControllerAction) :
    ({ hostState agenda with peer := .realChip } : State).peer = .realChip ∧
      ({ hostState agenda with peer := .realChip } : State).bus = .answering ∧
      Memory.wf ({ hostState agenda with peer := .realChip } : State).registers = true ∧
      currentOp ({ hostState agenda with peer := .realChip } : State).trace = none ∧
      ({ hostState agenda with peer := .realChip } : State).agenda = agenda ∧
      validDateTime ((some ⟨0, 0, 0, 15, 6, 6, 124⟩ : Option DateTime).getD Config.defaultDateTime) = true :=
  ⟨rfl, rfl, rfl, rfl, rfl, by decide⟩

theorem witness_chip_step :
    Memory.wf (storeState [(0, 0x20), (3, 0x59)] [] [.chipSets 15 1]).registers = true ∧ (15 : Nat) < 16 ∧
      (registerByte (storeState [(0, 0x20)] [] []) 0x00).getLsbD 5 = true ∧ (countedBits 3).getLsbD 6 = true := by
  decide

theorem witness_chip_step_past_the_last_register :
    Memory.wf (storeState [(0, 0x20)] [] [.chipSets 16 1]).registers = true ∧ 16 ≤ (16 : Nat) ∧
      faultOf (storeState [(0, 0x20)] [] [.chipSets 16 1]) = some .noSuchRegister := by decide

/-- A chip step of the counter while the timer is not enabled. -/
theorem witness_chip_step_of_a_stopped_timer :
    Memory.wf (storeState [(0x0E, 0x02), (0x0F, 0x64)] [] [.chipSets 15 0x63]).registers = true ∧
      (registerByte (storeState [(0x0E, 0x02), (0x0F, 0x64)] [] []) 0x0E).getLsbD 7 = false ∧
      registersAfter (storeState [(0x0E, 0x02), (0x0F, 0x64)] [] [.chipSets 15 0x63]) =
        some [(0x0E, 0x02), (0x0F, 0x64)] := by decide

theorem witness_real_chip_valid_bytes :
    validRegisterByte 1 0xFF = true ∧ validRegisterByte 2 0x59 = true ∧ validRegisterByte 15 0xFF = true ∧
      ∃ t, step { storeState [] timeTrace [.wr 2 timeLanes] with peer := .realChip } = .next t :=
  ⟨by decide, by decide, by decide, _, rfl⟩

theorem witness_unpack_raised :
    currentOp [.evaluated 0x40B0451201030124#64 0x4000000000000000#64, .began .getDateTime] = some .getDateTime ∧
      resultStatus 0x4000000000000000#64 = 1#2 ∧
      ∃ t, step (storeState [] [.evaluated 0x40B0451201030124#64 0x4000000000000000#64, .began .getDateTime]
        [.finish]) = .next t := ⟨rfl, by decide, _, rfl⟩

theorem witness_packed_fields_out_of_range :
    (resultLane (packResult 0#2 false (packTime 0 80 159 100 159 80 99)) 0).getLsbD 7 = false ∧
      (80 ≤ (80#8 : Byte).toNat ∧ (159#8 : Byte).toNat < 160) ∧ 160 ≤ (160#8 : Byte).toNat ∧
      200 ≤ (255#8 : Byte).toNat := by decide

theorem witness_voltage_low_register : (registerByte (hostState []) 0x02).getLsbD 7 = true := by decide

end Sys2Proof.Tests
end

section
/-! PROOFS. The interface of the codec and the chip's registers (spec/10_state.md): what a step and an instruction
leave unchanged, the output flags by instruction, the control bytes, and what the real chip holds after a write and
after a step of its own. -/

namespace Sys2Proof.Proofs

open Sys2Proof Sys2Proof.Machine Sys2Proof.Safety Sys2Proof.Laws

/-! ## What an instruction packs into its result word -/

/-- The exception an instruction raises (R201, R202, R206). -/
def raisedBy : Instr → Option CodecException
  | .reserved => some .illegalOp
  | .timeUnpack b0 _ _ _ _ _ _ => if voltageLowBit b0 then some .clockIntegrity else none
  | _ => none

/-- STATUS by exception (R200). -/
def statusOf (raised : Option CodecException) : BitVec 2 := raised.elim statusOk exceptionStatus

/-- RFLAG by instruction (R23). -/
def rflagOf : Instr → Bool
  | .c2AfGet c2 => afBit c2
  | .c2TfGet c2 => tfBit c2
  | .timeUnpack b0 _ _ _ _ b5 b6 => !voltageLowBit b0 && (decodedYear b5 b6).getLsbD 8
  | _ => false

/-- Every instruction packs its STATUS and its RFLAG over some lanes, in every state alike. -/
theorem exec_packs (i : Instr) :
    ∃ l, ∀ s, exec i s = .next { s with result := packResult (statusOf (raisedBy i)) (rflagOf i) l } := by
  cases i with
  | timeUnpack b0 b1 b2 b3 b4 b5 b6 =>
    cases hv : voltageLowBit b0 with
    | true => exact ⟨{}, fun s => by simp [exec, execTimeUnpack, raiseException_eq, statusOf, raisedBy, rflagOf, hv]⟩
    | false =>
      exact ⟨unpackTime b0 b1 b2 b3 b4 b5 b6, fun s => by
        simp [exec, execTimeUnpack, complete_eq, statusOf, raisedBy, rflagOf, hv]⟩
  | _ => exact ⟨_, fun _ => rfl⟩

/-- The result word after an instruction. -/
theorem result_of_exec {i : Instr} {s t : State} (h : exec i s = .next t) :
    ∃ l, t.result = packResult (statusOf (raisedBy i)) (rflagOf i) l := by
  obtain ⟨l, hl⟩ := exec_packs i
  rw [hl s] at h
  cases h
  exact ⟨l, rfl⟩

theorem resultStatus_of_exec {i : Instr} {s t : State} (h : exec i s = .next t) :
    resultStatus t.result = statusOf (raisedBy i) := by
  obtain ⟨l, hl⟩ := result_of_exec h
  rw [hl, resultStatus_packResult]

theorem resultFlag_of_exec {i : Instr} {s t : State} (h : exec i s = .next t) :
    resultFlag t.result = rflagOf i := by
  obtain ⟨l, hl⟩ := result_of_exec h
  rw [hl, resultFlag_packResult]

theorem resultZeroField_of_exec {i : Instr} {s t : State} (h : exec i s = .next t) :
    resultZeroField t.result = 0#5 := by
  obtain ⟨l, hl⟩ := result_of_exec h
  rw [hl, resultZeroField_packResult]

theorem statusOf_eq_one_iff (e : Option CodecException) : statusOf e = 1#2 ↔ e = some .clockIntegrity := by
  rcases e with _ | _ | _ <;> decide

theorem statusOf_eq_two_iff (e : Option CodecException) : statusOf e = 2#2 ↔ e = some .illegalOp := by
  rcases e with _ | _ | _ <;> decide

theorem statusOf_ne_three (e : Option CodecException) : statusOf e ≠ 3#2 := by
  rcases e with _ | _ | _ <;> decide

/-- CLOCK_INTEGRITY is TIME_UNPACK's answer to the voltage-low bit alone (R201). -/
theorem raisedBy_eq_clockIntegrity_iff (i : Instr) : raisedBy i = some .clockIntegrity ↔
    ∃ b0 b1 b2 b3 b4 b5 b6, i = .timeUnpack b0 b1 b2 b3 b4 b5 b6 ∧ b0.getLsbD 7 = true := by
  cases i <;> simp [raisedBy, voltageLowBit]

/-- ILLEGAL_OP is the reserved code's alone (R202). -/
theorem raisedBy_eq_illegalOp_iff (i : Instr) : raisedBy i = some .illegalOp ↔ i = .reserved := by
  cases i <;> simp [raisedBy]

/-- `dec` as a number, by the two nibbles (R103). -/
theorem decNat_eq (b : Byte) : decNat b = b.toNat / 16 * 10 + b.toNat % 16 := by
  rw [decNat, Nat.shiftRight_eq_div_pow, show (0xF : Nat) = 2 ^ 4 - 1 from rfl, Nat.and_two_pow_sub_one_eq_mod]

/-- Year bit 8 needs the century flag and a years byte of 0xF6 or more: `dec` alone gives 165 at most (R127). -/
theorem century_of_year_bit8 {b5 b6 : Byte} (h : (decodedYear b5 b6).getLsbD 8 = true) :
    b5.getLsbD 7 = true ∧ 0xF6 ≤ b6.toNat := by
  have hb : b6.toNat < 256 := b6.isLt
  have hy : 256 ≤ decNat b6 + (if centuryBit b5 then 100 else 0) := by
    simp only [decodedYear, BitVec.getLsbD_ofNat] at h
    exact Nat.ge_two_pow_of_testBit (Bool.and_elim_right h)
  rw [decNat_eq] at hy
  cases hc : centuryBit b5 with
  | true =>
    rw [hc, if_pos rfl] at hy
    exact ⟨hc, by omega⟩
  | false =>
    rw [hc, if_neg (by decide)] at hy
    omega

/-! ## The output flags -/

/-- Settles O11, by the exception each instruction raises. -/
theorem statusCodesByInstruction : Obligations.StatusCodesByInstruction := by
  intro i s t h
  rw [resultStatus_of_exec h]
  exact ⟨(statusOf_eq_one_iff _).trans (raisedBy_eq_clockIntegrity_iff i),
    (statusOf_eq_two_iff _).trans (raisedBy_eq_illegalOp_iff i), statusOf_ne_three _, resultZeroField_of_exec h⟩

/-- Settles O12, by the RFLAG each instruction packs. -/
theorem resultFlagOnlyFromFlagReadersAndUnpack : Obligations.ResultFlagOnlyFromFlagReadersAndUnpack := by
  intro i s t h hflag
  rw [resultFlag_of_exec h] at hflag
  cases i with
  | c2AfGet c => exact .inl ⟨c, rfl, hflag⟩
  | c2TfGet c => exact .inr (.inl ⟨c, rfl, hflag⟩)
  | timeUnpack b0 b1 b2 b3 b4 b5 b6 =>
    simp only [rflagOf, Bool.and_eq_true, Bool.not_eq_true'] at hflag
    obtain ⟨hvl, hyear⟩ := hflag
    exact .inr (.inr ⟨b0, b1, b2, b3, b4, b5, b6, rfl, hvl, century_of_year_bit8 hyear⟩)
  | _ => cases hflag

/-! ## What a step and an instruction leave unchanged -/

/-- Settles O9: the word an instruction gives is one for all states. -/
theorem resultIsAFunctionOfTheCommandWord : Obligations.ResultIsAFunctionOfTheCommandWord := by
  intro s s' hs hs' hcmd
  obtain ⟨r, hr⟩ := exec_next (decode s.command)
  exact ⟨r, (step_idle hs).trans (hr s), (step_idle hs').trans (hcmd ▸ hr s')⟩

/-- Settles O10: the next state is the old one with another result word, so its registers are the old ones. -/
theorem instructionsChangeOnlyTheResult : Obligations.InstructionsChangeOnlyTheResult := by
  intro i s t h
  have ht : t = { s with result := t.result } := exec_inv h
  refine ⟨ht, fun a => ?_, fun a => ?_⟩
  · rw [ht]
  · rw [ht]; rfl

/-- A word placed as an opcode-table word of 64 bits stands at the input whole. -/
theorem withFetchWord_eq (s : State) (w : Word) : s.withFetchWord 64 w.toNat = loadCommand w s := by
  rw [State.withFetchWord, Nat.mod_eq_of_lt w.isLt, BitVec.ofNat_toNat, BitVec.setWidth_eq]

/-- Settles O8: an idle step is exec of the decoded word, which changes the result alone. -/
theorem stepRunsTheDecodedInstruction : Obligations.StepRunsTheDecodedInstruction := by
  refine ⟨?_, ?_, ?_⟩
  · intro s i hs hi
    rw [step_idle hs, hi]
  · intro s t hs hstep
    rw [step_idle hs] at hstep
    have ht : t = { s with result := t.result } := exec_inv hstep
    exact ⟨by rw [ht], by rw [ht]; exact hs⟩
  · intro s w
    rw [withFetchWord_eq, step_idle (loadCommand_agenda w s)]
    rfl

/-- Settles O39: the reset word decodes to the reserved code, whose result word is the one reset holds. -/
theorem resetLeavesNothingToSet : Obligations.ResetLeavesNothingToSet := by
  refine ⟨?_, fun _ => rfl, fun _ => rfl⟩
  have hreserved : decode State.reset.command = .reserved := by decide
  rw [step_idle rfl, hreserved]
  rfl

/-! ## The control bytes -/

theorem exec_c1StopWr (c : Byte) (b : Bool) (s : State) :
    exec (.c1StopWr c b) s = complete false { r0 := stopWritten c b } s := rfl

theorem exec_c2AieWr (c : Byte) (ie : Bool) (s : State) :
    exec (.c2AieWr c ie) s = complete false { r0 := aieWritten c ie } s := rfl

theorem exec_c2AfClr (c : Byte) (s : State) : exec (.c2AfClr c) s = complete false { r0 := c &&& 0xF7#8 } s := rfl

theorem exec_c2TfClr (c : Byte) (s : State) : exec (.c2TfClr c) s = complete false { r0 := c &&& 0xFB#8 } s := rfl

theorem exec_c2TmrCfg (c : Byte) (rep ie : Bool) (s : State) :
    exec (.c2TmrCfg c rep ie) s = complete false { r0 := timerC2 c rep ie } s := rfl

theorem exec_tctlPack (en : Bool) (src : BitVec 2) (s : State) :
    exec (.tctlPack en src) s = complete false { r0 := timerCtl en src } s := rfl

theorem exec_clkoutPack (en : Bool) (freq : BitVec 2) (s : State) :
    exec (.clkoutPack en freq) s = complete false { r0 := clkoutByte en freq } s := rfl

/-- An instruction that gives one byte reaches a state whose lane 0 holds it. -/
theorem exists_lane0_of_complete {i : Instr} {s : State} {v : Byte} (h : exec i s = complete false { r0 := v } s) :
    ∃ t, exec i s = .next t ∧ resultLane t.result 0 = v :=
  ⟨_, h, resultLane0_packResult _ _ _⟩

/-- An operation whose byte function is idempotent gives one result word again on its own output. -/
theorem exec_own_output {op : Byte → Instr} {f : Byte → Byte}
    (hop : ∀ c s, exec (op c) s = complete false { r0 := f c } s) (hf : ∀ c, f (f c) = f c) (c : Byte) (s : State) :
    ∃ t u, exec (op c) s = .next t ∧ exec (op (resultLane t.result 0)) t = .next u ∧ u.result = t.result := by
  refine ⟨_, _, hop c s, hop _ _, ?_⟩
  simp only [resultLane0_packResult, hf]

theorem stopWritten_idem (b : Bool) (c : Byte) : stopWritten (stopWritten c b) b = stopWritten c b := by
  cases b
  · simp [stopWritten, BitVec.and_assoc]
  · simp [stopWritten, BitVec.or_assoc]

theorem aieWritten_idem (ie : Bool) (c : Byte) : aieWritten (aieWritten c ie) ie = aieWritten c ie := by
  cases ie
  · simp [aieWritten, BitVec.and_assoc]
  · simp [aieWritten, BitVec.or_assoc]

/-- The bits `timer_c2` sets are among those it clears first (R170). -/
theorem timerC2_and_mask (rep ie : Bool) (c : Byte) : timerC2 c rep ie &&& 0xEA#8 = c &&& 0xEA#8 := by
  have hrep : (if rep then 0x10#8 else 0x00#8) &&& 0xEA#8 = 0x00#8 := by cases rep <;> rfl
  have hie : (if ie then 0x01#8 else 0x00#8) &&& 0xEA#8 = 0x00#8 := by cases ie <;> rfl
  rw [timerC2, BitVec.and_or_distrib_right, BitVec.and_or_distrib_right, hrep, hie, BitVec.or_zero, BitVec.or_zero,
    BitVec.and_assoc, BitVec.and_self]

theorem timerC2_idem (rep ie : Bool) (c : Byte) : timerC2 (timerC2 c rep ie) rep ie = timerC2 c rep ie := by
  rw [timerC2, timerC2_and_mask]
  rfl

/-- Settles O35: each of the five byte functions is idempotent. -/
theorem controlByteOperationsAreIdempotent : Obligations.ControlByteOperationsAreIdempotent := by
  refine ⟨fun c b => ?_, fun c b => ?_, ?_, ?_, fun c rep ie => ?_⟩
  · exact exec_own_output (fun c s => exec_c1StopWr c b s) (stopWritten_idem b) c
  · exact exec_own_output (fun c s => exec_c2AieWr c b s) (aieWritten_idem b) c
  · exact exec_own_output exec_c2AfClr (fun c => by rw [BitVec.and_assoc, BitVec.and_self])
  · exact exec_own_output exec_c2TfClr (fun c => by rw [BitVec.and_assoc, BitVec.and_self])
  · exact exec_own_output (fun c s => exec_c2TmrCfg c rep ie s) (timerC2_idem rep ie) c

theorem frequencyOf_clkoutByte (en : Bool) (f : ClkoutFrequency) :
    frequencyOf (clkoutByte en (frequencyCode f)) = f := by
  cases en <;> cases f <;> rfl

theorem clkoutEnableBit_clkoutByte (en : Bool) (q : BitVec 2) : clkoutEnableBit (clkoutByte en q) = en := by
  cases en <;> simp [clkoutEnableBit, clkoutByte]

theorem clockSourceOf_timerCtl (c : ClockSource) : clockSourceOf (timerCtl true (clockSourceCode c)) = c := by
  cases c <;> rfl

theorem timerEnableBit_timerCtl (en : Bool) (src : BitVec 2) : timerEnableBit (timerCtl en src) = en := by
  cases en <;> simp [timerEnableBit, timerCtl]

theorem stopBit_stopWritten (c : Byte) (b : Bool) : stopBit (stopWritten c b) = b := by
  cases b <;> simp [stopBit, stopWritten]

/-- Settles O36: the packed byte stands in lane 0 and the tables read it back. -/
theorem codesAndStopBitReadBack : Obligations.CodesAndStopBitReadBack := by
  refine ⟨fun en f s => ?_, fun c s => ?_, fun c1 b s => ?_⟩
  · obtain ⟨t, ht, hlane⟩ := exists_lane0_of_complete (exec_clkoutPack en (frequencyCode f) s)
    exact ⟨t, ht, by rw [hlane, frequencyOf_clkoutByte], by rw [hlane, clkoutEnableBit_clkoutByte]⟩
  · obtain ⟨t, ht, hlane⟩ := exists_lane0_of_complete (exec_tctlPack true (clockSourceCode c) s)
    exact ⟨t, ht, by rw [hlane, clockSourceOf_timerCtl], by rw [hlane, timerEnableBit_timerCtl]⟩
  · obtain ⟨t, ht, hlane⟩ := exists_lane0_of_complete (exec_c1StopWr c1 b s)
    exact ⟨t, ht, by rw [hlane, clockRun, stopBit_stopWritten]⟩

/-! ## A write -/

/-- Everything a step that writes known bytes can do: the bytes land inside the register space and the write enters the
trace. -/
theorem step_wr_inv {s t : State} {a : Nat} {data : List Operand} {bs : List Byte} {rest : List ControllerAction}
    (hag : s.agenda = .wr a data :: rest) (hbs : operandBytes s.trace data = some bs) (h : step s = .next t) :
    a + bs.length ≤ registerCount ∧
      t = { landBytes a bs { s with agenda := rest } with trace := .wrote a bs :: s.trace } := by
  rw [step_act hag] at h
  obtain ⟨-, bs', hbs', hw⟩ := withOperands_inv h
  obtain rfl : bs = bs' := Option.some.inj (hbs.symm.trans hbs')
  obtain ⟨-, hle, -, ht⟩ := writeBytes_inv hw
  exact ⟨hle, ht⟩

/-- The real chip holds a valid byte as written but for its flags. -/
theorem getLsbD_realChipByte {a j : Nat} {b : Byte} (d : Byte) (hb : validRegisterByte a b = true) (hj : j < 8)
    (hf : (chipFlagBits a).getLsbD j = false) : (realChipByte a b d).getLsbD j = b.getLsbD j := by
  rw [realChipByte, if_pos hb, getLsbD_takeBits _ _ _ _ hj, hf, if_neg (by decide)]

/-- Only control2 and seconds hold flags of the chip (R35). -/
theorem chipFlagBits_other {a : Nat} (h1 : a ≠ 1) (h2 : a ≠ 2) : chipFlagBits a = 0#8 := by
  unfold chipFlagBits
  split
  · exact absurd rfl h1
  · exact absurd rfl h2
  · rfl

/-- The real chip holds a valid byte as written in a register without flags. -/
theorem realChipByte_other {a : Nat} {b : Byte} (d : Byte) (hb : validRegisterByte a b = true) (h1 : a ≠ 1)
    (h2 : a ≠ 2) : realChipByte a b d = b := by
  rw [realChipByte, if_pos hb, chipFlagBits_other h1 h2, takeBits_none]

/-- AF and TF are bits 3 and 2. -/
theorem chipFlagBits_control2 {j : Nat} (hj : j < 8) (h2 : j ≠ 2) (h3 : j ≠ 3) :
    (chipFlagBits 1).getLsbD j = false := by
  have hbits : ∀ j : Fin 8, j.val ≠ 2 → j.val ≠ 3 → (chipFlagBits 1).getLsbD j = false := by decide
  exact hbits ⟨j, hj⟩ h2 h3

/-- VL is bit 7. -/
theorem chipFlagBits_seconds {j : Nat} (hj : j < 7) : (chipFlagBits 2).getLsbD j = false := by
  interval_cases j <;> rfl

/-- Settles O43, by where each byte of a transaction lands and what the real chip makes of it. -/
theorem writeLandsInAscendingOrder : Obligations.WriteLandsInAscendingOrder := by
  intro s t a data bs rest hwf hag hbs h
  obtain ⟨hle, rfl⟩ := step_wr_inv hag hbs h
  have hat : ∀ k b, bs[k]? = some b → (landBytes a bs { s with agenda := rest }).registers.read (a + k) =
      some (landedByte s.peer (a + k) b (Config.chipDraw (s.draws + k))) :=
    fun k b hk => read_landBytes_at a k b bs { s with agenda := rest } hwf hle hk
  refine ⟨rfl, landBytes_agenda .., landBytes_command .., landBytes_result .., ?_, ?_, ?_⟩
  · rintro a' (hlt | hge)
    · exact read_landBytes_below a a' bs { s with agenda := rest } hwf hle hlt
    · exact read_landBytes_above a a' bs { s with agenda := rest } hwf hle hge
  · intro hp k b hk
    simpa only [hp, landedByte] using hat k b hk
  · intro hp k b hk hvalid
    refine ⟨realChipByte (a + k) b (Config.chipDraw (s.draws + k)), ?_, ?_, ?_, ?_⟩
    · simpa only [hp, landedByte] using hat k b hk
    · exact realChipByte_other _ hvalid
    · intro j hj hak h2 h3
      exact getLsbD_realChipByte _ hvalid hj (hak ▸ chipFlagBits_control2 hj h2 h3)
    · intro j hj hak
      exact getLsbD_realChipByte _ hvalid (by omega) (hak ▸ chipFlagBits_seconds hj)

/-! ## A step of the chip's own -/

/-- A bit that is none of the chip's stays as it was, in the register a chip step changes and in every other. -/
theorem getLsbD_chipChange {s : State} (hwf : Memory.wf s.registers = true) (a : Nat) (v : Byte) {r j : Nat}
    (hj : j < 8) (hown : (chipOwnBits s r).getLsbD j = false) :
    (registerByte (chipChange a v s) r).getLsbD j = (registerByte s r).getLsbD j := by
  by_cases hr : r = a
  · subst hr
    rw [registerByte_chipChange_same, getLsbD_takeBits _ _ _ _ hj, hown, if_neg (by decide)]
  · rw [registerByte_chipChange_other a r v s hwf hr]

/-- A register with no bit of the chip's stays as it was. -/
theorem registerByte_chipChange_of_own_none {s : State} (hwf : Memory.wf s.registers = true) (a : Nat) (v : Byte)
    {r : Nat} (hown : chipOwnBits s r = 0#8) : registerByte (chipChange a v s) r = registerByte s r :=
  BitVec.eq_of_getLsbD_eq fun _ hj => getLsbD_chipChange hwf a v hj (by rw [hown, BitVec.getLsbD_zero])

/-- The named bits that R35 gives to the controller, outside the alarm block: STOP, TIE, AIE, TI/TP, the century flag,
and the enable bits and codes of clkout and timer-control. -/
def controllerBits : List (Nat × Nat) :=
  [(0x00, 5), (0x01, 0), (0x01, 1), (0x01, 4), (0x07, 7), (0x0D, 7), (0x0D, 1), (0x0D, 0), (0x0E, 7), (0x0E, 1),
    (0x0E, 0)]

/-- No mask of the chip's bits holds one of the controller's. -/
theorem masks_of_controllerBits : ∀ p ∈ controllerBits, p.2 < 8 ∧ (unnamedBits p.1).getLsbD p.2 = false ∧
    (chipFlagBits p.1).getLsbD p.2 = false ∧ (countedBits p.1).getLsbD p.2 = false := by
  decide

/-- The alarm registers are the controller's whole. -/
theorem chipOwnBits_alarm (s : State) {r : Nat} (h9 : 9 ≤ r) (h12 : r ≤ 12) : chipOwnBits s r = 0#8 := by
  have hmasks : unnamedBits r = 0#8 ∧ chipFlagBits r = 0#8 ∧ countedBits r = 0#8 := by
    interval_cases r <;> exact ⟨rfl, rfl, rfl⟩
  obtain ⟨hu, hf, hc⟩ := hmasks
  rw [chipOwnBits, hu, hf, hc, ite_self]
  rfl

/-- A counted bit of the time block is neither unnamed nor a flag. -/
theorem masks_of_countedBits {r j : Nat} (h2 : 2 ≤ r) (h8 : r ≤ 8) (hj : j < 8)
    (hc : (countedBits r).getLsbD j = true) :
    (unnamedBits r).getLsbD j = false ∧ (chipFlagBits r).getLsbD j = false := by
  have hdisjoint : ∀ r : Fin 9, 2 ≤ r.val → ∀ j : Fin 8, (countedBits r).getLsbD j = true →
      (unnamedBits r).getLsbD j = false ∧ (chipFlagBits r).getLsbD j = false := by decide
  exact hdisjoint ⟨r, by omega⟩ h2 ⟨j, hj⟩ hc

/-- While STOP is 1 no register of the time block counts (R25, R131). -/
theorem countsNow_of_stop {s : State} (hstop : (registerByte s 0x00).getLsbD 5 = true) {r : Nat} (h2 : 2 ≤ r)
    (h8 : r ≤ 8) : countsNow s r = false := by
  have htime : inTimeBlock r = true := by simp [inTimeBlock, h2, h8]
  have hrun : clockRun (registerByte s addrControl1) = .haltedForUpdate := if_pos hstop
  rw [countsNow, if_pos htime, hrun]
  rfl

/-- While the timer is not enabled its counter is none of the chip's (R33). -/
theorem chipOwnBits_timer_disabled {s : State} (hte : (registerByte s 0x0E).getLsbD 7 = false) :
    chipOwnBits s 0x0F = 0#8 := by
  have hstill : countsNow s 0x0F = false := hte
  rw [chipOwnBits, hstill]
  rfl

/-- A step of the chip's own inside the register space. -/
theorem step_chipSets {s : State} {a : Nat} {v : Byte} {rest : List ControllerAction}
    (hag : s.agenda = .chipSets a v :: rest) (ha : a < 16) :
    step s = .next (chipChange a v { s with agenda := rest }) := by
  rw [step_act hag]
  exact actChipSets_next ha

/-- A step of the chip's own past the last register. -/
theorem step_chipSets_fault {s : State} {a : Nat} {v : Byte} {rest : List ControllerAction}
    (hag : s.agenda = .chipSets a v :: rest) (ha : 16 ≤ a) : step s = .fault .noSuchRegister := by
  rw [step_act hag]
  exact if_neg (by simp only [inRegisterSpace, registerCount, decide_eq_true_eq]; omega)

/-- Settles O53: a single written byte is the byte listed, and a chip step changes no bit but its own. -/
theorem realChipKeepsTheControllersControl2Bits : Obligations.RealChipKeepsTheControllersControl2Bits := by
  refine ⟨?_, ?_⟩
  · intro s t data b rest hp hag hbs h
    obtain ⟨-, rfl⟩ := step_wr_inv hag hbs h
    refine ⟨landedByte s.peer 1 b (Config.chipDraw s.draws), Memory.read_write_same _ _ _, ?_⟩
    intro k hk h2 h3
    rw [hp]
    exact getLsbD_realChipByte _ rfl hk (chipFlagBits_control2 hk h2 h3)
  · intro s a value rest hwf hag
    refine ⟨step_chipSets_fault hag, fun ha => ⟨_, step_chipSets hag ha, rfl, ?_, ?_, ?_, ?_, ?_⟩⟩
    · exact fun r hr => registerByte_chipChange_other a r value { s with agenda := rest } hwf hr
    · intro r j hrj
      obtain ⟨hj, hu, hf, hc⟩ := masks_of_controllerBits (r, j) hrj
      exact getLsbD_chipChange (s := { s with agenda := rest }) hwf a value hj (chipOwnBits_of_controller hu hf hc)
    · intro r h9 h12
      exact registerByte_chipChange_of_own_none (s := { s with agenda := rest }) hwf a value
        (chipOwnBits_alarm _ h9 h12)
    · intro hstop r j h2 h8 hj hc
      obtain ⟨hu, hf⟩ := masks_of_countedBits h2 h8 hj hc
      exact getLsbD_chipChange (s := { s with agenda := rest }) hwf a value hj
        (chipOwnBits_of_still hu hf (countsNow_of_stop hstop h2 h8))
    · intro hte
      exact registerByte_chipChange_of_own_none (s := { s with agenda := rest }) hwf a value
        (chipOwnBits_timer_disabled hte)

end Sys2Proof.Proofs
end

section
/-! PROOFS. Memory (spec/20_memory.md): the command word on a byte-serial link, and what a read gives of the chip's
registers. -/

namespace Sys2Proof.Proofs

open Sys2Proof Sys2Proof.Machine Sys2Proof.Laws

/-! ## The command word on a byte-serial link -/

/-- The first byte on the link is `OP` over the flag operand, and the lanes follow in ascending order. -/
theorem wordOfBytes_eq_packCommand (op f : Nibble) (a0 a1 a2 a3 a4 a5 a6 : Byte) :
    wordOfBytes (op ++ f) a0 a1 a2 a3 a4 a5 a6 = packCommand op f a0 a1 a2 a3 a4 a5 a6 := rfl

/-- `OP` over the flag operand is the top byte of a word. -/
theorem opField_append_flagField (w : Word) : opField w ++ flagField w = w.extractLsb' 56 8 :=
  BitVec.extractLsb'_append_extractLsb'_eq_extractLsb' rfl

/-- The bytes of a word make up the word. -/
theorem decodeBytes_bytesOfWord (w : Word) : decodeBytes (bytesOfWord w) = .ok (decode w) := by
  have hword := packCommand_fields w
  rw [← wordOfBytes_eq_packCommand, opField_append_flagField] at hword
  exact congrArg (fun v => Except.ok (decode v)) hword

/-- A byte string that is not eight bytes is rejected by its length (log entry 16). -/
theorem decodeBytes_of_length_ne {bs : List Byte} (h : bs.length ≠ 8) :
    decodeBytes bs = if bs.length < 8 then .error (.tooShort bs.length) else .error (.tooLong bs.length) := by
  unfold decodeBytes
  split
  · exact absurd rfl h
  · rfl

/-- Settles O7: a word and its eight bytes are the same bits in the same order, and only eight bytes are a word. -/
theorem byteSerialWordDecodes : Obligations.ByteSerialWordDecodes := by
  refine ⟨?_, fun i => decodeBytes_bytesOfWord (encode i), ?_⟩
  · intro op f a0 a1 a2 a3 a4 a5 a6
    rw [← wordOfBytes_eq_packCommand]
    rfl
  · intro bs hlen
    rw [decodeBytes_of_length_ne hlen]
    split
    · exact ⟨_, rfl⟩
    · exact ⟨_, rfl⟩

/-! ## A read -/

/-- A bit that is not free is read as it is held, from either peer. -/
theorem getLsbD_readByte (p : Peer) {a j : Nat} (held draw : Byte) (hj : j < 8)
    (hf : (freeReadBits a).getLsbD j = false) : (readByte p a held draw).getLsbD j = held.getLsbD j := by
  cases p with
  | simulatedStore => rfl
  | realChip => exact (getLsbD_takeBits _ _ _ _ hj).trans (if_neg (by simp [hf]))

/-- What a read gives does not depend on what is to come. -/
theorem readBytes_agenda (s : State) (rest : List ControllerAction) (a d n : Nat) :
    readBytes { s with agenda := rest } a d n = readBytes s a d n := by
  induction n generalizing a d with
  | zero => rfl
  | succ n ih => exact congrArg (List.cons _) (ih (a + 1) (d + 1))

/-- A read inside the register space that the bus answers changes the agenda, the free values used up and the trace,
and nothing else. -/
theorem step_rd {s : State} {a n : Nat} {rest : List ControllerAction} (hb : s.bus = .answering)
    (hag : s.agenda = .rd a n :: rest) (hr : a + n ≤ 16) :
    step s = .next { s with
      agenda := rest, draws := s.draws + n, trace := .didRead a (readBytes s a s.draws n) :: s.trace } := by
  rw [step_act hag, ← readBytes_agenda s rest]
  exact actRead_next (s := { s with agenda := rest }) hb hr

/-- A read that reaches past the last register. -/
theorem step_rd_fault {s : State} {a n : Nat} {rest : List ControllerAction} (hb : s.bus = .answering)
    (hag : s.agenda = .rd a n :: rest) (hr : 16 < a + n) : step s = .fault .noSuchRegister := by
  have hout : inRegisterSpace a n = false := decide_eq_false (Nat.not_le_of_lt hr)
  rw [step_act hag]
  simp [act, actRead, hb, hout]

/-- Settles O42, by the byte a read gives at each place and what each peer makes of the byte held there. -/
theorem readGivesRegistersInAscendingOrder : Obligations.ReadGivesRegistersInAscendingOrder := by
  intro s a n rest hb hag
  refine ⟨fun hr => ⟨readBytes s a s.draws n, step_rd hb hag hr, length_readBytes s a s.draws n, ?_⟩,
    step_rd_fault hb hag⟩
  intro k hk
  refine ⟨_, getElem_readBytes s a s.draws n k hk, ?_, readByte_control _ _ _ _, fun _ => getLsbD_readByte _ _ _⟩
  intro hp
  rw [hp, readByte]

end Sys2Proof.Proofs
end

section
/-! PROOFS. Encoding (spec/30_encoding.md): decode and encode undo each other, the command word as a number, the
reserved code, the assembler and the pseudo-instructions. -/

namespace Sys2Proof.Proofs

open Sys2Proof Sys2Proof.Machine Sys2Proof.Safety Sys2Proof.Laws

/-! ## Decode after encode -/

/-- Settles O1: decoding the packed word reads back its fields, and the instruction's operands from them. -/
theorem decodeOfEncodeIsTheInstruction : Obligations.DecodeOfEncodeIsTheInstruction := by
  intro i
  cases i with
  | c1StopWr c s =>
    rw [encode, decode_packCommand]
    exact congrArg (Instr.c1StopWr c) (flagBit0_flag1 s)
  | c2AieWr c ie =>
    rw [encode, decode_packCommand]
    exact congrArg (Instr.c2AieWr c) (flagBit0_flag1 ie)
  | c2TmrCfg c rep ie =>
    rw [encode, decode_packCommand]
    exact congrArg₂ (Instr.c2TmrCfg c) (flagBit1_flag2 rep ie) (flagBit0_flag2 rep ie)
  | tctlPack en src =>
    rw [encode, decode_packCommand]
    exact congrArg₂ Instr.tctlPack (flagBit0_flagCoded src en) (flagCode_flagCoded src en)
  | clkoutPack en freq =>
    rw [encode, decode_packCommand]
    exact congrArg₂ Instr.clkoutPack (flagBit0_flagCoded freq en) (flagCode_flagCoded freq en)
  | _ => exact decode_packCommand ..

/-! ## Encode after decode -/

theorem flag1_flagBit (f : Nibble) : flag1 (flagBit f 0) = f &&& 0x1#4 := by
  revert f; decide

theorem flag2_flagBits (f : Nibble) : flag2 (flagBit f 1) (flagBit f 0) = f &&& 0x3#4 := by
  revert f; decide

theorem flagCoded_flagCode (f : Nibble) : flagCoded (flagCode f) (flagBit f 0) = f &&& 0x7#4 := by
  revert f; decide

theorem opField_and (w m : Word) : opField (w &&& m) = opField w &&& opField m := BitVec.extractLsb'_and

theorem flagField_and (w m : Word) : flagField (w &&& m) = flagField w &&& flagField m := BitVec.extractLsb'_and

theorem operandLane_and (w m : Word) (k : Nat) : operandLane (w &&& m) k = operandLane w k &&& operandLane m k :=
  BitVec.extractLsb'_and

theorem and_nibble_ones (n : Nibble) : n &&& 0xF#4 = n := BitVec.and_allOnes

theorem and_lane_ones (a : Byte) : a &&& 0xFF#8 = a := BitVec.and_allOnes

section Mask

variable (op : Nibble) {f g m : Nibble} (a0 a1 a2 a3 a4 a5 a6 : Byte)

/-- A mask goes through a packed word field by field. -/
theorem packCommand_and (f op' f' : Nibble) (b0 b1 b2 b3 b4 b5 b6 : Byte) :
    packCommand op f a0 a1 a2 a3 a4 a5 a6 &&& packCommand op' f' b0 b1 b2 b3 b4 b5 b6 =
      packCommand (op &&& op') (f &&& f') (a0 &&& b0) (a1 &&& b1) (a2 &&& b2) (a3 &&& b3) (a4 &&& b4) (a5 &&& b5)
        (a6 &&& b6) := by
  rw [← packCommand_fields (_ &&& _)]
  simp only [opField_and, flagField_and, operandLane_and, opField_packCommand, flagField_packCommand,
    operandLane0_packCommand, operandLane1_packCommand, operandLane2_packCommand, operandLane3_packCommand,
    operandLane4_packCommand, operandLane5_packCommand, operandLane6_packCommand]

/-- A pattern of R70 that uses flag bits and no lane. -/
theorem packCommand_flags_eq_and (hg : g = f &&& m) :
    packCommand op g 0#8 0#8 0#8 0#8 0#8 0#8 0#8 =
      packCommand op f a0 a1 a2 a3 a4 a5 a6 &&& packCommand 0xF#4 m 0#8 0#8 0#8 0#8 0#8 0#8 0#8 := by
  simp only [packCommand_and, hg, and_nibble_ones, BitVec.and_zero]

/-- A pattern of R70 that uses flag bits and `A[0]`. -/
theorem packCommand_lane0_eq_and (hg : g = f &&& m) :
    packCommand op g a0 0#8 0#8 0#8 0#8 0#8 0#8 =
      packCommand op f a0 a1 a2 a3 a4 a5 a6 &&& packCommand 0xF#4 m 0xFF#8 0#8 0#8 0#8 0#8 0#8 0#8 := by
  simp only [packCommand_and, hg, and_nibble_ones, and_lane_ones, BitVec.and_zero]

/-- A pattern of R70 that uses flag bits and `A[0]` to `A[3]`. -/
theorem packCommand_lanes0to3_eq_and (hg : g = f &&& m) :
    packCommand op g a0 a1 a2 a3 0#8 0#8 0#8 =
      packCommand op f a0 a1 a2 a3 a4 a5 a6 &&& packCommand 0xF#4 m 0xFF#8 0xFF#8 0xFF#8 0xFF#8 0#8 0#8 0#8 := by
  simp only [packCommand_and, hg, and_nibble_ones, and_lane_ones, BitVec.and_zero]

/-- A pattern of R70 that uses flag bits and every lane. -/
theorem packCommand_lanes0to6_eq_and (hg : g = f &&& m) :
    packCommand op g a0 a1 a2 a3 a4 a5 a6 =
      packCommand op f a0 a1 a2 a3 a4 a5 a6 &&&
        packCommand 0xF#4 m 0xFF#8 0xFF#8 0xFF#8 0xFF#8 0xFF#8 0xFF#8 0xFF#8 := by
  simp only [packCommand_and, hg, and_nibble_ones, and_lane_ones]

/-- Encoding what the fields of a word decode to keeps the bits of R70's pattern, operation code by operation code from
0x0 to 0xF. -/
theorem encode_decodeFields :
    encode (decodeFields op f a0 a1 a2 a3 a4 a5 a6) = packCommand op f a0 a1 a2 a3 a4 a5 a6 &&& usedBits op := by
  have noFlag : 0#4 = f &&& 0#4 := BitVec.and_zero.symm
  have lane0 (k : Nibble) := packCommand_lane0_eq_and k a0 a1 a2 a3 a4 a5 a6 noFlag
  obtain ⟨⟨k, hk⟩⟩ := op
  interval_cases k
  · exact packCommand_flags_eq_and 0x0#4 a0 a1 a2 a3 a4 a5 a6 noFlag
  · exact lane0 0x1#4
  · exact lane0 0x2#4
  · exact packCommand_lanes0to6_eq_and 0x3#4 a0 a1 a2 a3 a4 a5 a6 noFlag
  · exact packCommand_lanes0to6_eq_and 0x4#4 a0 a1 a2 a3 a4 a5 a6 noFlag
  · exact packCommand_lane0_eq_and 0x5#4 a0 a1 a2 a3 a4 a5 a6 (flag1_flagBit f)
  · exact packCommand_lanes0to3_eq_and 0x6#4 a0 a1 a2 a3 a4 a5 a6 (and_nibble_ones f).symm
  · exact packCommand_lane0_eq_and 0x7#4 a0 a1 a2 a3 a4 a5 a6 (flag1_flagBit f)
  · exact lane0 0x8#4
  · exact lane0 0x9#4
  · exact packCommand_lane0_eq_and 0xA#4 a0 a1 a2 a3 a4 a5 a6 (flag2_flagBits f)
  · exact packCommand_flags_eq_and 0xB#4 a0 a1 a2 a3 a4 a5 a6 (flagCoded_flagCode f)
  · exact lane0 0xC#4
  · exact lane0 0xD#4
  · exact lane0 0xE#4
  · exact packCommand_flags_eq_and 0xF#4 a0 a1 a2 a3 a4 a5 a6 (flagCoded_flagCode f)

end Mask

/-- Settles O2: a word is packed from its own fields, and each field keeps the bits of R70's pattern. -/
theorem encodeOfDecodeClearsIgnoredBits : Obligations.EncodeOfDecodeClearsIgnoredBits := by
  intro w
  calc encode (decode w)
    _ = packCommand (opField w) (flagField w) (operandLane w 0) (operandLane w 1) (operandLane w 2) (operandLane w 3)
          (operandLane w 4) (operandLane w 5) (operandLane w 6) &&& usedBits (opField w) := encode_decodeFields ..
    _ = w &&& usedBits (opField w) := by rw [packCommand_fields]

/-! ## The row is selected by `OP` alone -/

theorem opField_usedBits (op : Nibble) : opField (usedBits op) = 0xF#4 := by
  revert op; decide

/-- The used bits hold `OP` whole. -/
theorem opField_and_usedBits (w : Word) (op : Nibble) : opField (w &&& usedBits op) = opField w := by
  rw [opField_and, opField_usedBits, and_nibble_ones]

theorem opField_encode (i : Instr) : opField (encode i) = opcode i := by
  cases i <;> exact opField_packCommand ..

theorem opcode_decode (w : Word) : opcode (decode w) = opField w := by
  rw [← opField_encode, encodeOfDecodeClearsIgnoredBits, opField_and_usedBits]

/-- Settles O4: the encoding of the decoded instruction holds the word's `OP`, and exec answers with one word. -/
theorem decodingIsTotalByOperationCode : Obligations.DecodingIsTotalByOperationCode := by
  refine ⟨opcode_decode, fun w s => ?_⟩
  obtain ⟨r, hr⟩ := exec_next (decode w)
  exact ⟨r, hr s⟩

/-- Words that agree on the used bits decode to one instruction: both encode back to the same word. -/
theorem decode_eq_of_usedBits {w w' : Word} (h : w &&& usedBits (opField w) = w' &&& usedBits (opField w)) :
    decode w = decode w' := by
  have hop : opField w = opField w' := by
    rw [← opField_and_usedBits w (opField w), h, opField_and_usedBits]
  have henc : encode (decode w) = encode (decode w') := by
    rw [encodeOfDecodeClearsIgnoredBits w, encodeOfDecodeClearsIgnoredBits w', h, hop]
  rw [← decodeOfEncodeIsTheInstruction (decode w), henc, decodeOfEncodeIsTheInstruction]

/-- Settles O3: the two words decode to one instruction, and exec answers a next state. -/
theorem ignoredBitsHaveNoEffect : Obligations.IgnoredBitsHaveNoEffect := by
  intro w w' s h
  obtain ⟨r, hr⟩ := exec_next (decode w)
  exact ⟨_, hr s, decode_eq_of_usedBits h ▸ hr s⟩

theorem opcode_eq_zero_iff (i : Instr) : opcode i = 0x0#4 ↔ i = .reserved := by
  cases i <;> simp [opcode]

theorem exec_reserved (s : State) : exec .reserved s = raiseException .illegalOp s := rfl

/-- Settles O34: the reserved code packs ILLEGAL_OP over zero lanes, and it alone has operation code 0. -/
theorem reservedCodeRaisesIllegalOp : Obligations.ReservedCodeRaisesIllegalOp := by
  refine ⟨fun s => ⟨_, exec_reserved s, rfl, ?_⟩, fun w => ?_⟩
  · refine resultIs_congr (resultIs_packResult _ _ _) ?_
    decide
  · rw [← opcode_decode, opcode_eq_zero_iff]

/-! ## The command word as a number -/

/-- A field put below a word shifts the word up by the field's width. -/
theorem toNat_append_eq {m n : Nat} (x : BitVec m) (y : BitVec n) : (x ++ y).toNat = x.toNat * 2 ^ n + y.toNat := by
  rw [BitVec.toNat_append, ← Nat.shiftLeft_add_eq_or_of_lt y.isLt, Nat.shiftLeft_eq]

/-- Settles O5, field by field from `OP` down. -/
theorem encodingFormula : Obligations.EncodingFormula := by
  intro op f a0 a1 a2 a3 a4 a5 a6
  rw [packCommand]
  simp only [toNat_append_eq]
  omega

/-- Settles O6, by decoding each word. -/
theorem writtenWordsDecode : Obligations.WrittenWordsDecode := by
  refine ⟨?_, ?_, ?_, ?_, ?_, ?_, ?_⟩ <;> decide

/-! ## The assembler -/

/-- A line is accepted when it has as many operands as widths and each fits its field. -/
theorem fitsWidths_iff (ws vs : List Nat) : fitsWidths ws vs = true ↔
    vs.length = ws.length ∧ ∀ k w, ws[k]? = some w → vs.getD k 0 < 2 ^ w := by
  induction ws generalizing vs with
  | nil =>
    cases vs with
    | nil => simp [fitsWidths]
    | cons v vs => simp [fitsWidths]
  | cons w ws ih =>
    cases vs with
    | nil => simp [fitsWidths]
    | cons v vs =>
      simp only [fitsWidths, Bool.and_eq_true, decide_eq_true_eq, ih, List.length_cons, Nat.add_right_cancel_iff]
      constructor
      · rintro ⟨hv, hlen, hrest⟩
        refine ⟨hlen, fun k u hu => ?_⟩
        cases k with
        | zero => cases hu; exact hv
        | succ k => exact hrest k u hu
      · rintro ⟨hlen, hall⟩
        exact ⟨hall 0 w rfl, hlen, fun k u hu => hall (k + 1) u hu⟩

theorem assemble_of_wellFormed {l : AsmLine} (h : l.wellFormed = true) :
    assemble l = some (assembleFitting l.mnemonic (fun k => l.operands.getD k 0)) := if_pos h

/-- Everything the assembler can accept: a well-formed line, as the instruction of its mnemonic. -/
theorem assemble_inv {l : AsmLine} {i : Instr} (h : assemble l = some i) :
    l.wellFormed = true ∧ i = assembleFitting l.mnemonic (fun k => l.operands.getD k 0) := by
  unfold assemble at h
  split at h
  · next hl => exact ⟨hl, (Option.some.inj h).symm⟩
  · cases h

/-- No mnemonic stands for the reserved code (R71). -/
theorem wellFormed_assembleFitting (m : Mnemonic) (o : Nat → Nat) : (assembleFitting m o).wellFormed = true := by
  cases m <;> rfl

theorem bitOf_flagNumber (b : Bool) : bitOf (flagNumber b) = b := by cases b <;> rfl

theorem flagNumber_lt (b : Bool) : flagNumber b < 2 ^ 1 := by cases b <;> decide

/-- Every operand the disassembler prints fits its field. -/
theorem wellFormed_disassemble {i : Instr} {l : AsmLine} (h : disassemble i = some l) : l.wellFormed = true := by
  cases i with
  | reserved => cases h
  | _ =>
    cases h
    simp only [AsmLine.wellFormed, operandWidths, fitsWidths, BitVec.isLt, flagNumber_lt, decide_true, Bool.and_self]

/-- The assembler's instruction for a printed line is the one printed, operand by operand. -/
theorem assembleFitting_disassemble {i : Instr} {l : AsmLine} (h : disassemble i = some l) :
    assembleFitting l.mnemonic (fun k => l.operands.getD k 0) = i := by
  cases i with
  | reserved => cases h
  | _ =>
    cases h
    simp only [assembleFitting, laneOf, codeOf, List.getD_cons_zero, List.getD_cons_succ, BitVec.ofNat_toNat,
      BitVec.setWidth_eq, bitOf_flagNumber]

theorem wellFormed_iff_disassemble (i : Instr) : i.wellFormed = true ↔ ∃ l, disassemble i = some l := by
  cases i with
  | reserved => exact ⟨fun h => (nomatch h), fun ⟨_, h⟩ => (nomatch h)⟩
  | _ => exact ⟨fun _ => ⟨_, rfl⟩, fun _ => rfl⟩

/-- Settles O37, from what the assembler accepts and what the disassembler prints. -/
theorem assemblerReadsBackTheDisassembler : Obligations.AssemblerReadsBackTheDisassembler := by
  refine ⟨fun i l h => ?_, wellFormed_iff_disassemble, fun l i h => ?_⟩
  · rw [assemble_of_wellFormed (wellFormed_disassemble h), assembleFitting_disassemble h]
  · obtain ⟨hl, rfl⟩ := assemble_inv h
    exact ⟨wellFormed_assembleFitting _ _, (fitsWidths_iff _ _).mp hl⟩

/-- Two lines that are accepted alike and stand for one instruction are assembled alike. -/
theorem assemble_congr {l l' : AsmLine} (hfit : l.wellFormed = l'.wellFormed)
    (hinstr : assembleFitting l.mnemonic (fun k => l.operands.getD k 0) =
      assembleFitting l'.mnemonic (fun k => l'.operands.getD k 0)) : assemble l = assemble l' := by
  rw [assemble, assemble, hfit, hinstr]

/-- Settles O38: a fixed operand of an expansion fits its field, and the instructions are the same. -/
theorem pseudoInstructionsExpand : Obligations.PseudoInstructionsExpand :=
  ⟨fun _ => assemble_congr rfl rfl, fun _ => assemble_congr rfl rfl, fun _ => assemble_congr rfl rfl,
    fun _ => assemble_congr rfl rfl, assemble_congr rfl rfl, assemble_congr rfl rfl, fun _ => assemble_congr rfl rfl⟩

end Sys2Proof.Proofs
end

section
/-! PROOFS. The invariant: every step keeps the result word legal, the register space canonical and the trace free of
hazards (spec/30_encoding.md R67, spec/70_reset_and_hazards.md section 3). -/

namespace Sys2Proof.Proofs

open Sys2Proof Sys2Proof.Machine Sys2Proof.Safety Sys2Proof.Laws

theorem inv_iff (s : State) : inv s = true ↔
    resultLegal s.result = true ∧ Memory.wf s.registers = true ∧ traceOk s.trace = true := by
  simp only [inv, Bool.and_eq_true, and_assoc]

/-! ## The result word -/

/-- STATUS 0 leaves RFLAG and the lanes free (R67). -/
theorem resultLegal_complete (r : Bool) (l : Lanes) : resultLegal (packResult statusOk r l) = true := by
  simp [resultLegal, resultStatus_packResult, resultZeroField_packResult, statusOk]

/-- An exception leaves RFLAG and every lane 0 (R201, R202). -/
theorem resultLegal_raise (e : CodecException) : resultLegal (packResult (exceptionStatus e) false {}) = true := by
  have hstatus : exceptionStatus e ≠ 3#2 := by cases e <;> decide
  simp [resultLegal, resultStatus_packResult, resultFlag_packResult, resultZeroField_packResult, lanesZero_of_raise,
    hstatus]

theorem resultLegal_of_exec {i : Instr} {s t : State} (h : exec i s = .next t) : resultLegal t.result = true := by
  rcases exec_cases i with ⟨r, l, hi⟩ | ⟨e, hi⟩
  · rw [hi, complete_eq] at h
    cases h
    exact resultLegal_complete r l
  · rw [hi, raiseException_eq] at h
    cases h
    exact resultLegal_raise e

/-! ## What keeps the invariant -/

section Keeps

variable {s t : State} (hs : inv s = true)
include hs

/-- An instruction gives a legal word and leaves the registers and the trace alone. -/
theorem inv_of_exec {i : Instr} (h : exec i s = .next t) : inv t = true := by
  obtain ⟨-, hwf, htrace⟩ := (inv_iff s).mp hs
  have hlegal := resultLegal_of_exec h
  rw [exec_inv h]
  exact (inv_iff _).mpr ⟨hlegal, hwf, htrace⟩

/-- A trace one event longer stays clean when the event runs into no hazard. -/
theorem inv_of_traced {e : BusEvent} (hz : hazardOf e s.trace = none) :
    inv { s with trace := e :: s.trace } = true := by
  obtain ⟨hlegal, hwf, htrace⟩ := (inv_iff s).mp hs
  exact (inv_iff _).mpr ⟨hlegal, hwf, traceOk_cons hz htrace⟩

theorem inv_of_actStart {op : HostOp} (h : actStart op s = .next t) : inv t = true := by
  obtain ⟨rfl, hz⟩ := record_inv h
  exact inv_of_traced hs hz

/-- A read runs into no hazard. -/
theorem inv_of_actRead {a n : Nat} (h : actRead a n s = .next t) : inv t = true := by
  obtain ⟨-, -, rfl⟩ := actRead_inv h
  exact inv_of_traced hs (e := .didRead a (readBytes s a s.draws n)) rfl

theorem inv_of_issue {cw : Word} (h : issue cw s = .next t) : inv t = true := by
  obtain ⟨hz, u, hu, rfl⟩ := issue_inv h
  have huinv : inv u = true := inv_of_exec (s := { s with command := cw }) hs hu
  have htrace : u.trace = s.trace := by rw [exec_inv hu]
  exact inv_of_traced huinv (e := .evaluated cw u.result) (htrace ▸ hz)

theorem inv_of_actEvaluate {op f : Nibble} {lanes : List Operand} (h : actEvaluate op f lanes s = .next t) :
    inv t = true := by
  obtain ⟨-, bs, -, hissue⟩ := withOperands_inv h
  exact inv_of_issue hs hissue

/-- A write lands inside the register space. -/
theorem inv_of_actWrite {a : Nat} {data : List Operand} (h : actWrite a data s = .next t) : inv t = true := by
  obtain ⟨-, bs, -, hwrite⟩ := withOperands_inv h
  obtain ⟨-, hle, hz, rfl⟩ := writeBytes_inv hwrite
  obtain ⟨hlegal, hwf, htrace⟩ := (inv_iff s).mp hs
  refine (inv_iff _).mpr ⟨?_, wf_landBytes a bs s hwf hle, traceOk_cons hz htrace⟩
  exact (landBytes_result a bs s).symm ▸ hlegal

theorem inv_of_actFinish (h : actFinish s = .next t) : inv t = true := by
  obtain ⟨op, r, -, hz, -, rfl⟩ := actFinish_inv h
  exact inv_of_traced hs hz

theorem inv_of_actChipSets {a : Nat} {v : Byte} (h : actChipSets a v s = .next t) : inv t = true := by
  obtain ⟨ha, rfl⟩ := actChipSets_inv h
  obtain ⟨hlegal, hwf, htrace⟩ := (inv_iff s).mp hs
  exact (inv_iff _).mpr ⟨hlegal, wf_chipChange a v s hwf ha, htrace⟩

/-- Every action of the agenda keeps the invariant. -/
theorem inv_of_act {a : ControllerAction} (h : act a s = .next t) : inv t = true := by
  cases a with
  | start op => exact inv_of_actStart hs h
  | rd addr count => exact inv_of_actRead hs h
  | ex op f lanes => exact inv_of_actEvaluate hs h
  | wr addr data => exact inv_of_actWrite hs h
  | finish => exact inv_of_actFinish hs h
  | chipSets addr value => exact inv_of_actChipSets hs h
  | busBecomes c => cases h; exact hs

end Keeps

/-- Settles O41: an idle step is one instruction, any other step one action. -/
theorem everyStepKeepsTheInvariant : Obligations.EveryStepKeepsTheInvariant := by
  intro s t hs h
  cases hag : s.agenda with
  | nil =>
    rw [step_idle hag] at h
    exact inv_of_exec hs h
  | cons a rest =>
    rw [step_act hag] at h
    exact inv_of_act (s := { s with agenda := rest }) hs h

end Sys2Proof.Proofs
end

section
/-! PROOFS. The BCD codec (spec/40_bcd_codec.md): the encoder and the decoder as numbers, their round trips, and what
TIME_PACK gives of out-of-range fields (spec/41_time_fields.md R123). -/

namespace Sys2Proof.Proofs

open Sys2Proof Sys2Proof.Machine Sys2Proof.Safety Sys2Proof.Laws

/-! ## The encoder and the decoder as numbers -/

/-- The high nibble of an encoded byte is the tens digit modulo 16, the low nibble the units digit (R100). -/
theorem toNat_enc (v : Byte) : (enc v).toNat = v.toNat / 10 % 16 * 16 + v.toNat % 10 := by
  rw [enc, BitVec.toNat_ofNat]
  omega

/-- The decoder's number fits in the byte (R103). -/
theorem toNat_dec (b : Byte) : (dec b).toNat = b.toNat / 16 * 10 + b.toNat % 16 := by
  have hb : b.toNat < 256 := b.isLt
  rw [dec, BitVec.toNat_ofNat, decNat_eq]
  omega

/-- Bit 7 of a byte is its most significant bit. -/
theorem getLsbD_seven_iff (b : Byte) : b.getLsbD 7 = true ↔ 128 ≤ b.toNat := by
  have hmsb : b.msb = b.getLsbD 7 := BitVec.msb_eq_getLsbD_last b
  rw [← hmsb, BitVec.msb_eq_true_iff_two_mul_ge]
  omega

theorem dec_enc {v : Byte} (h : v.toNat < 160) : dec (enc v) = v := by
  apply BitVec.eq_of_toNat_eq
  rw [toNat_dec, toNat_enc]
  omega

/-- The encoder wraps with period 160 (R102). -/
theorem enc_sub_period {v : Byte} (h : 160 ≤ v.toNat) : enc (v - 160#8) = enc v := by
  have hsub : (v - 160#8).toNat = v.toNat - 160 := BitVec.toNat_sub_of_le h
  apply BitVec.eq_of_toNat_eq
  rw [toNat_enc, toNat_enc, hsub]
  omega

theorem dec_enc_of_ge {v : Byte} (h : 160 ≤ v.toNat) : dec (enc v) = v - 160#8 := by
  have hv : v.toNat < 256 := v.isLt
  have hsub : (v - 160#8).toNat = v.toNat - 160 := BitVec.toNat_sub_of_le h
  rw [← enc_sub_period h, dec_enc (by omega)]

/-- A low nibble above 9 carries into the tens, and the units digit is another (R106). -/
theorem enc_dec_eq_iff (b : Byte) : enc (dec b) = b ↔ b.toNat % 16 ≤ 9 := by
  have hb : b.toNat < 256 := b.isLt
  rw [← BitVec.toNat_inj, toNat_enc, toNat_dec]
  omega

/-- Bit 7 of an encoded byte is bit 3 of its high nibble. -/
theorem enc_bit7_iff (v : Byte) : (enc v).getLsbD 7 = true ↔ 8 ≤ v.toNat / 10 % 16 := by
  rw [getLsbD_seven_iff, toNat_enc]
  omega

/-! ## BCD_ENC and BCD_DEC -/

theorem exec_bcdEnc (v : Byte) (s : State) : exec (.bcdEnc v) s = complete false { r0 := enc v } s := rfl

theorem exec_bcdDec (b : Byte) (s : State) : exec (.bcdDec b) s = complete false { r0 := dec b } s := rfl

/-- A result of one byte has every other lane 0 (R67). -/
theorem resultIs_lane0 (v : Byte) : ResultIs (packResult statusOk false { r0 := v }) 0#2 false [v] :=
  resultIs_congr (resultIs_packResult _ _ _) fun k hk => by interval_cases k <;> rfl

/-- Settles O17: each result byte stands in lane 0, and the decoder undoes the encoder up to the period 160. -/
theorem bcdRoundTrip : Obligations.BcdRoundTrip := by
  intro v s
  obtain ⟨t, ht, henc⟩ := exists_lane0_of_complete (exec_bcdEnc v s)
  obtain ⟨u, hu, hdec⟩ := exists_lane0_of_complete (exec_bcdDec (resultLane t.result 0) t)
  rw [henc] at hdec
  exact ⟨t, u, ht, hu, fun h => hdec.trans (dec_enc h), fun h => hdec.trans (dec_enc_of_ge h)⟩

/-- Settles O18: each result byte stands in lane 0, and the encoder restores a byte whose low nibble is a digit. -/
theorem bcdReverseRoundTrip : Obligations.BcdReverseRoundTrip := by
  intro b s
  obtain ⟨t, ht, hdec⟩ := exists_lane0_of_complete (exec_bcdDec b s)
  obtain ⟨u, hu, henc⟩ := exists_lane0_of_complete (exec_bcdEnc (resultLane t.result 0) t)
  rw [hdec] at henc
  exact ⟨t, u, ht, hu, henc ▸ enc_dec_eq_iff b⟩

/-- Settles O14: the encoder's byte is packed over zero lanes. -/
theorem bcdEncEncodesOneValue : Obligations.BcdEncEncodesOneValue := by
  refine ⟨fun v s => ⟨_, exec_bcdEnc v s, rfl, resultIs_lane0 (enc v)⟩, fun w h => ?_⟩
  rw [decode, h]
  rfl

/-- Settles O15: the decoder's byte is packed over zero lanes, and two nibbles give 165 at most. -/
theorem bcdDecDecodesOneByte : Obligations.BcdDecDecodesOneByte := by
  refine ⟨fun b s => ?_, fun w h => ?_⟩
  · have hb : b.toNat < 256 := b.isLt
    have hbyte : dec b = BitVec.ofNat 8 (b.toNat / 16 * 10 + b.toNat % 16) := by rw [dec, decNat_eq]
    refine ⟨_, exec_bcdDec b s, rfl, hbyte ▸ resultIs_lane0 (dec b), ?_⟩
    rw [resultLane0_packResult, toNat_dec]
    exact ⟨rfl, by omega⟩
  · rw [decode, h]
    rfl

/-- Settles O16: the decoder is the encoder's inverse on 0 to 159, and the encoder as a number gives the
image, the period and bit 7. -/
theorem encoderRangeFacts : Obligations.EncoderRangeFacts := by
  refine ⟨fun v v' hv hv' h => ?_, fun b => ⟨?_, fun h => ⟨dec b, ?_, (enc_dec_eq_iff b).mpr h⟩⟩,
    fun v h => (enc_sub_period h).symm, enc_bit7_iff⟩
  · rw [← dec_enc hv, h, dec_enc hv']
  · rintro ⟨v, -, rfl⟩
    rw [toNat_enc]
    omega
  · have hb : b.toNat < 256 := b.isLt
    rw [toNat_dec]
    omega

/-! ## The bytes of a packed time -/

theorem enc_bit7_of_mid {v : Byte} (h80 : 80 ≤ v.toNat) (h160 : v.toNat < 160) : (enc v).getLsbD 7 = true := by
  rw [enc_bit7_iff]
  omega

/-- The tens digit of 100 to 159 is no decimal digit (R123). -/
theorem ten_le_enc_div {v : Byte} (h100 : 100 ≤ v.toNat) (h160 : v.toNat < 160) : 10 ≤ (enc v).toNat / 16 := by
  rw [toNat_enc]
  omega

theorem toNat_and_low7 (b : Byte) : (b &&& 0x7F#8).toNat = b.toNat % 128 := by
  rw [BitVec.toNat_and]
  exact Nat.and_two_pow_sub_one_eq_mod b.toNat 7

/-- Without bit 7 a field of 80 to 159 reads back 80 less (R123). -/
theorem decMasked_enc {v : Byte} (h80 : 80 ≤ v.toNat) (h160 : v.toNat < 160) : decMasked (enc v) = v - 80#8 := by
  have hsub : (v - 80#8).toNat = v.toNat - 80 := BitVec.toNat_sub_of_le h80
  apply BitVec.eq_of_toNat_eq
  rw [decMasked, toNat_dec, toNat_and_low7, toNat_enc, hsub]
  omega

/-- The flag adds nothing to a month byte that has bit 7 set of its own (R122). -/
theorem monthByte_of_bit7 {month : Byte} (year : Byte) (h : (enc month).getLsbD 7 = true) :
    monthByte month year = enc month := by
  have hor : enc month ||| 0x80#8 = enc month := by
    apply BitVec.eq_of_getLsbD_eq
    intro i hi
    rw [BitVec.getLsbD_or]
    interval_cases i <;> simp [h]
  rw [monthByte]
  split
  · exact hor
  · exact BitVec.or_zero

theorem monthByte_of_century (month : Byte) {year : Byte} (h : 100 ≤ year.toNat) :
    (monthByte month year).getLsbD 7 = true := by
  simp [monthByte, hasCentury, h]

theorem yearByte_of_century {year : Byte} (h : 100 ≤ year.toNat) : yearByte year = enc (year - 100#8) := by
  have hsub : BitVec.ofNat 8 (year.toNat - 100) = year - 100#8 := by
    have hnat : (year - 100#8).toNat = year.toNat - 100 := BitVec.toNat_sub_of_le h
    rw [← hnat, BitVec.ofNat_toNat, BitVec.setWidth_eq]
  rw [yearByte, hasCentury, decide_eq_true h, if_pos rfl, hsub]

theorem yearByte_of_lt {year : Byte} (h : year.toNat < 100) : yearByte year = enc year := by
  rw [yearByte, hasCentury, decide_eq_false (Nat.not_le_of_lt h), if_neg Bool.false_ne_true]

/-- A year of 200 to 255 leaves 100 to 155 for the years byte (R123). -/
theorem ten_le_yearByte_div {year : Byte} (h : 200 ≤ year.toNat) : 10 ≤ (yearByte year).toNat / 16 := by
  have hlt : year.toNat < 256 := year.isLt
  have h100 : 100 ≤ year.toNat := by omega
  have hsub : (year - 100#8).toNat = year.toNat - 100 := BitVec.toNat_sub_of_le h100
  rw [yearByte_of_century h100]
  exact ten_le_enc_div (by omega) (by omega)

/-! ## Packing a time and reading it back -/

theorem exec_timePack (sec min hour day wday month year : Byte) (s : State) :
    exec (.timePack sec min hour day wday month year) s =
      complete false (packTime sec min hour day wday month year) s := rfl

theorem exists_result_of_complete {i : Instr} {s : State} {r : Bool} {l : Lanes} (h : exec i s = complete r l s) :
    ∃ t, exec i s = .next t ∧ t.result = packResult statusOk r l := ⟨_, h, rfl⟩

/-- With VL clear TIME_UNPACK completes with its seven decoded fields (R125, R127). -/
theorem result_of_timeUnpack {b0 b1 b2 b3 b4 b5 b6 : Byte} {s u : State} (hv : b0.getLsbD 7 = false)
    (h : exec (.timeUnpack b0 b1 b2 b3 b4 b5 b6) s = .next u) :
    u.result = packResult statusOk ((decodedYear b5 b6).getLsbD 8) (unpackTime b0 b1 b2 b3 b4 b5 b6) := by
  rw [exec, execTimeUnpack, voltageLowBit, hv, if_neg Bool.false_ne_true, complete_eq] at h
  cases h
  rfl

/-- RFLAG over lane 6 is the decoded year (R127). -/
theorem ofBool_append_yearLane (y : BitVec 9) : BitVec.ofBool (y.getLsbD 8) ++ y.extractLsb' 0 8 = y := by
  apply BitVec.eq_of_getLsbD_eq
  intro i hi
  rw [BitVec.getLsbD_append, BitVec.getLsbD_extractLsb']
  interval_cases i <;> simp

/-- The century flag adds 100 to the decoded year; the sum fits in nine bits. -/
theorem toNat_decodedYear_of_century {b5 : Byte} (b6 : Byte) (h : b5.getLsbD 7 = true) :
    (decodedYear b5 b6).toNat = (dec b6).toNat + 100 := by
  have hb : b6.toNat < 256 := b6.isLt
  rw [decodedYear, centuryBit, h, if_pos rfl, BitVec.toNat_ofNat, decNat_eq, toNat_dec]
  omega

section Lanes

variable {sec min hour day wday month : Byte} (year : Byte) {k : Nat} {v : Byte} {st : BitVec 2} {r : Bool}

/-- The lanes of a packed time before the month hold the encoded fields (R120). -/
theorem resultLane_packTime (h : (k, v) ∈ [(0, sec), (1, min), (2, hour), (3, day), (4, wday)]) :
    resultLane (packResult st r (packTime sec min hour day wday month year)) k = enc v := by
  obtain ⟨-, -, -, hlane⟩ := resultIs_packResult st r (packTime sec min hour day wday month year)
  simp only [List.mem_cons, Prod.mk.injEq, List.not_mem_nil, or_false] at h
  rcases h with ⟨rfl, rfl⟩ | ⟨rfl, rfl⟩ | ⟨rfl, rfl⟩ | ⟨rfl, rfl⟩ | ⟨rfl, rfl⟩ <;> exact hlane _ (by decide)

/-- A field of 80 to 159, the month among them, stands encoded in its lane. -/
theorem resultLane_packTime_of_mid
    (h : (k, v) ∈ [(0, sec), (1, min), (2, hour), (3, day), (4, wday), (5, month)])
    (h80 : 80 ≤ v.toNat) (h160 : v.toNat < 160) :
    resultLane (packResult st r (packTime sec min hour day wday month year)) k = enc v := by
  have hsplit : (k, v) ∈ [(0, sec), (1, min), (2, hour), (3, day), (4, wday)] ++ [(5, month)] := h
  rcases List.mem_append.mp hsplit with hfield | hmonth
  · exact resultLane_packTime year hfield
  · cases List.mem_singleton.mp hmonth
    exact (resultLane5_packResult _ _ _).trans (monthByte_of_bit7 year (enc_bit7_of_mid h80 h160))

end Lanes

section Unpack

variable {b : Nat → Byte} {s u : State} (hv : (b 0).getLsbD 7 = false)
  (h : exec (.timeUnpack (b 0) (b 1) (b 2) (b 3) (b 4) (b 5) (b 6)) s = .next u)
include hv h

/-- With VL clear lanes 1 to 5 are decoded without bit 7 (R124). -/
theorem resultLane_of_timeUnpack {k : Nat} (hk : k ∈ [1, 2, 3, 4, 5]) : resultLane u.result k = decMasked (b k) := by
  rw [result_of_timeUnpack hv h]
  obtain ⟨-, -, -, hlane⟩ := resultIs_packResult statusOk ((decodedYear (b 5) (b 6)).getLsbD 8)
    (unpackTime (b 0) (b 1) (b 2) (b 3) (b 4) (b 5) (b 6))
  simp only [List.mem_cons, List.not_mem_nil, or_false] at hk
  rcases hk with rfl | rfl | rfl | rfl | rfl <;> exact hlane _ (by decide)

theorem year_of_timeUnpack :
    BitVec.ofBool (resultFlag u.result) ++ resultLane u.result 6 = decodedYear (b 5) (b 6) := by
  rw [result_of_timeUnpack hv h, resultFlag_packResult, resultLane6_packResult]
  exact ofBool_append_yearLane _

end Unpack

/-- Settles O20, clause by clause: what each field packs to, and what its byte reads back as. -/
theorem packedFieldsOutOfRange : Obligations.PackedFieldsOutOfRange := by
  intro sec min hour day wday month year s
  obtain ⟨t, ht, hword⟩ := exists_result_of_complete (exec_timePack sec min hour day wday month year s)
  obtain ⟨r, hr⟩ := exec_next (.timeUnpack (resultLane t.result 0) (resultLane t.result 1) (resultLane t.result 2)
    (resultLane t.result 3) (resultLane t.result 4) (resultLane t.result 5) (resultLane t.result 6))
  have hu := hr t
  have hfield : ∀ k v, (k, v) ∈ [(0, sec), (1, min), (2, hour), (3, day), (4, wday)] →
      resultLane t.result k = enc v := fun k v h => hword ▸ resultLane_packTime year h
  have hmid : ∀ k v, (k, v) ∈ [(0, sec), (1, min), (2, hour), (3, day), (4, wday), (5, month)] → 80 ≤ v.toNat →
      v.toNat < 160 → resultLane t.result k = enc v := fun k v h => hword ▸ resultLane_packTime_of_mid year h
  have hbit7 : ∀ k v, (k, v) ∈ [(0, sec), (1, min), (2, hour), (3, day), (4, wday), (5, month)] → 80 ≤ v.toNat →
      v.toNat < 160 → (resultLane t.result k).getLsbD 7 = true := fun k v h h80 h160 =>
    hmid k v h h80 h160 ▸ enc_bit7_of_mid h80 h160
  have hmonth : resultLane t.result 5 = monthByte month year := hword ▸ resultLane5_packResult _ _ _
  have hyear : resultLane t.result 6 = yearByte year := hword ▸ resultLane6_packResult _ _ _
  refine ⟨t, _, ht, hu, fun h80 h160 => ?_, fun hvl => ⟨fun k v hmem h80 h160 => ?_, fun h80 h160 => ?_⟩,
    fun k v hmem => ⟨fun h80 h160 => ?_, fun h100 h160 => ?_⟩, fun k v hmem h160 => ?_, fun h160 => ?_,
    fun h200 => ?_, ?_, ?_⟩
  · obtain ⟨hstatus, -⟩ := statusCodesByInstruction _ _ _ hu
    exact hstatus.mpr ⟨_, _, _, _, _, _, _, rfl, hbit7 0 sec (by simp) h80 h160⟩
  · have hk : k ∈ [1, 2, 3, 4, 5] := List.mem_map_of_mem (f := Prod.fst) hmem
    rw [resultLane_of_timeUnpack (b := resultLane t.result) hvl hu hk,
      hmid k v (List.mem_cons_of_mem _ hmem) h80 h160, decMasked_enc h80 h160]
  · have hcentury := hbit7 5 month (by simp) h80 h160
    rw [year_of_timeUnpack (b := resultLane t.result) hvl hu, toNat_decodedYear_of_century _ hcentury]
    refine ⟨rfl, fun h100 => ?_⟩
    rw [hyear, yearByte_of_lt h100, dec_enc (by omega)]
  · exact hbit7 k v hmem h80 h160
  · rw [hmid k v hmem (by omega) h160]
    exact ten_le_enc_div h100 h160
  · rw [hfield k v hmem, enc_sub_period h160]
  · rw [hmonth, monthByte, monthByte, enc_sub_period h160]
  · have h100 : 100 ≤ year.toNat := by omega
    rw [hmonth, hyear]
    exact ⟨monthByte_of_century month h100, yearByte_of_century h100, ten_le_yearByte_div h200⟩
  · rintro rfl
    exact ⟨hmonth ▸ monthByte_of_century month (by decide), hyear⟩
  · rintro rfl
    exact ⟨hmonth.trans BitVec.or_zero, hyear⟩

end Sys2Proof.Proofs
end

section
/-! PROOFS. The time fields (spec/41_time_fields.md): TIME_PACK, TIME_UNPACK and C1_STOP_WR, the round trip of a valid
date and time (R128), and the two host operations that carry it to the chip and back (spec/70_reset_and_hazards.md R234,
R235). -/

namespace Sys2Proof.Proofs

open Sys2Proof Sys2Proof.Machine Sys2Proof.Safety Sys2Proof.Laws

/-! ## The instructions of the time family -/

/-- The flag OR'd into the month byte, by the year operand (R122). -/
theorem monthByte_eq (month year : Byte) :
    monthByte month year = if 100 ≤ year.toNat then enc month ||| 0x80#8 else enc month := by
  unfold monthByte hasCentury
  split
  · next h => rw [if_pos (of_decide_eq_true h)]
  · next h => rw [if_neg (mt decide_eq_true h), BitVec.or_zero]

theorem yearByte_eq (year : Byte) :
    yearByte year = if 100 ≤ year.toNat then enc (year - 100#8) else enc year := by
  split
  · next h => exact yearByte_of_century h
  · next h => exact yearByte_of_lt (Nat.lt_of_not_le h)

/-- Settles O19: TIME_PACK packs its seven bytes, the last two by the century. -/
theorem timePackPacksTheFields : Obligations.TimePackPacksTheFields := by
  refine ⟨fun sec min hour day wday month year s => ?_, fun w h => ?_⟩
  · rw [← monthByte_eq, ← yearByte_eq]
    exact ⟨_, exec_timePack .., rfl, resultIs_packResult statusOk false (packTime sec min hour day wday month year)⟩
  · rw [decode, h]
    rfl

/-- With VL clear TIME_UNPACK completes with its seven decoded fields (R125, R126). -/
theorem exec_timeUnpack_of_clear {b0 : Byte} (b1 b2 b3 b4 b5 b6 : Byte) (s : State) (h : b0.getLsbD 7 = false) :
    exec (.timeUnpack b0 b1 b2 b3 b4 b5 b6) s =
      complete ((decodedYear b5 b6).getLsbD 8) (unpackTime b0 b1 b2 b3 b4 b5 b6) s := by
  rw [exec, execTimeUnpack, voltageLowBit, h, if_neg Bool.false_ne_true]

/-- With VL set TIME_UNPACK raises before it decodes (R126). -/
theorem exec_timeUnpack_of_voltageLow {b0 : Byte} (b1 b2 b3 b4 b5 b6 : Byte) (s : State) (h : b0.getLsbD 7 = true) :
    exec (.timeUnpack b0 b1 b2 b3 b4 b5 b6) s = raiseException .clockIntegrity s := by
  rw [exec, execTimeUnpack, voltageLowBit, if_pos h]

/-- The decoded year as a number: 265 at most, which nine bits hold (R127). -/
theorem toNat_decodedYear (b5 b6 : Byte) :
    (decodedYear b5 b6).toNat = b6.toNat / 16 * 10 + b6.toNat % 16 + (if b5.getLsbD 7 then 100 else 0) := by
  have hb : b6.toNat < 256 := b6.isLt
  rw [decodedYear, centuryBit, BitVec.toNat_ofNat, decNat_eq]
  split
  · omega
  · omega

/-- Settles O21: the completed result word, and the decoded year as a number. -/
theorem timeUnpackDecodesTheFields : Obligations.TimeUnpackDecodesTheFields := by
  refine ⟨fun b0 b1 b2 b3 b4 b5 b6 s h => ?_, fun w h => ?_⟩
  · refine ⟨_, decodedYear b5 b6, exec_timeUnpack_of_clear b1 b2 b3 b4 b5 b6 s h, rfl, toNat_decodedYear b5 b6, ?_⟩
    rw [BitVec.setWidth_eq_extractLsb' (by decide)]
    exact resultIs_packResult statusOk _ (unpackTime b0 b1 b2 b3 b4 b5 b6)
  · rw [decode, h]
    rfl

/-- Settles O22: the exception's result word has every lane 0. -/
theorem timeUnpackRaisesClockIntegrity : Obligations.TimeUnpackRaisesClockIntegrity := by
  intro b0 b1 b2 b3 b4 b5 b6 s h
  refine ⟨_, exec_timeUnpack_of_voltageLow b1 b2 b3 b4 b5 b6 s h, rfl, ?_⟩
  exact resultIs_congr (resultIs_packResult _ _ _) fun k hk => by interval_cases k <;> rfl

theorem getLsbD_stopWritten (c1 : Byte) (b : Bool) {k : Nat} (hk : k < 8) :
    (stopWritten c1 b).getLsbD k = if k = 5 then b else c1.getLsbD k := by
  cases b with
  | true =>
    rw [stopWritten, if_pos rfl, BitVec.getLsbD_or]
    interval_cases k <;> simp
  | false =>
    rw [stopWritten, if_neg Bool.false_ne_true, BitVec.getLsbD_and]
    interval_cases k <;> simp

/-- Settles O24, by the bits of the byte in lane 0. -/
theorem stopBitWrite : Obligations.StopBitWrite := by
  refine ⟨fun c1 b s => ?_, fun w h => ?_⟩
  · refine ⟨_, exec_c1StopWr c1 b s, rfl, ?_⟩
    rw [resultLane0_packResult]
    exact ⟨resultIs_lane0 _, fun k hk => getLsbD_stopWritten c1 b hk⟩
  · rw [decode, h]
    rfl

/-! ## The round trip of a valid date and time (R128) -/

/-- A field below 80 leaves bit 7 of its byte clear, so the mask takes nothing away. -/
theorem decMasked_enc_of_lt {v : Byte} (h : v.toNat < 80) : decMasked (enc v) = v := by
  apply BitVec.eq_of_toNat_eq
  rw [decMasked, toNat_dec, toNat_and_low7, toNat_enc]
  omega

theorem enc_bit7_of_lt {v : Byte} (h : v.toNat < 80) : (enc v).getLsbD 7 = false := by
  have hbit : ¬ (enc v).getLsbD 7 = true := by
    rw [enc_bit7_iff]
    omega
  simpa using hbit

/-- The mask takes the century flag away again. -/
theorem decMasked_monthByte {month : Byte} (year : Byte) (h : month.toNat < 80) :
    decMasked (monthByte month year) = month := by
  have hflag : monthByte month year &&& 0x7F#8 = enc month &&& 0x7F#8 := by
    rw [monthByte, BitVec.and_or_distrib_right]
    split <;> exact BitVec.or_zero
  rw [decMasked, hflag]
  exact decMasked_enc_of_lt h

/-- The century flag is the year's: the month leaves bit 7 clear. -/
theorem monthByte_bit7 {month : Byte} (year : Byte) (h : month.toNat < 80) :
    (monthByte month year).getLsbD 7 = hasCentury year := by
  rw [monthByte, BitVec.getLsbD_or, enc_bit7_of_lt h]
  cases hasCentury year <;> rfl

/-- A year of 0 to 199 is read back from its byte and the century flag. -/
theorem decodedYear_of_packed {month year : Byte} (hm : month.toNat < 80) (hy : year.toNat < 200) :
    decodedYear (monthByte month year) (yearByte year) = year.setWidth 9 := by
  apply BitVec.eq_of_toNat_eq
  rw [toNat_decodedYear, monthByte_bit7 year hm, hasCentury, yearByte_eq, BitVec.toNat_setWidth]
  by_cases h : 100 ≤ year.toNat
  · have hsub : (year - 100#8).toNat = year.toNat - 100 := BitVec.toNat_sub_of_le h
    rw [if_pos h, if_pos (decide_eq_true h), toNat_enc, hsub]
    omega
  · rw [if_neg h, if_neg (by simpa using h), toNat_enc]
    omega

/-- TIME_UNPACK of the packed bytes of a valid date and time completes with its fields (R128). -/
theorem exec_timeUnpack_of_packed {d : DateTime} (hd : validDateTime d = true) (s : State) :
    exec (.timeUnpack (enc d.seconds) (enc d.minutes) (enc d.hours) (enc d.day) (enc d.weekday)
        (monthByte d.month d.year) (yearByte d.year)) s =
      complete false ⟨d.seconds, d.minutes, d.hours, d.day, d.weekday, d.month, d.year⟩ s := by
  simp only [validDateTime, Bool.and_eq_true, decide_eq_true_eq] at hd
  obtain ⟨⟨⟨⟨⟨⟨⟨⟨hsec, hmin⟩, hhour⟩, -⟩, hday⟩, hwday⟩, -⟩, hmonth⟩, hyear⟩ := hd
  have hm80 : d.month.toNat < 80 := by omega
  have hdecoded : decodedYear (monthByte d.month d.year) (yearByte d.year) = d.year.setWidth 9 :=
    decodedYear_of_packed hm80 (by omega)
  have hflag : (d.year.setWidth 9).getLsbD 8 = false := by simp
  have hlane : (d.year.setWidth 9).extractLsb' 0 8 = d.year := by
    rw [← BitVec.setWidth_eq_extractLsb' (by decide), BitVec.setWidth_setWidth_of_le _ (by decide), BitVec.setWidth_eq]
  rw [exec_timeUnpack_of_clear _ _ _ _ _ _ _ (enc_bit7_of_lt (by omega)), unpackTime, hdecoded, hflag, hlane,
    decMasked_monthByte _ hm80, decMasked_enc_of_lt (by omega), decMasked_enc_of_lt (by omega),
    decMasked_enc_of_lt (by omega), decMasked_enc_of_lt (by omega), decMasked_enc_of_lt (by omega)]

/-- Settles O23: the lanes of the packed result word are the packed bytes, which TIME_UNPACK reads back. -/
theorem timeRoundTrip : Obligations.TimeRoundTrip := by
  intro sec min hour day wday month year s hsec hmin hhour hday1 hday hwday hmonth1 hmonth hyear
  obtain ⟨t, ht, hword⟩ := exists_result_of_complete (exec_timePack sec min hour day wday month year s)
  have hvalid : validDateTime ⟨sec, min, hour, day, wday, month, year⟩ = true := by simp [validDateTime, *]
  have hunpack : exec (.timeUnpack (resultLane t.result 0) (resultLane t.result 1) (resultLane t.result 2)
      (resultLane t.result 3) (resultLane t.result 4) (resultLane t.result 5) (resultLane t.result 6)) t =
      complete false ⟨sec, min, hour, day, wday, month, year⟩ t := by
    rw [hword, resultLane0_packResult, resultLane1_packResult, resultLane2_packResult, resultLane3_packResult,
      resultLane4_packResult, resultLane5_packResult, resultLane6_packResult]
    exact exec_timeUnpack_of_packed hvalid t
  exact ⟨t, _, ht, hunpack, resultIs_packResult statusOk false ⟨sec, min, hour, day, wday, month, year⟩⟩

end Sys2Proof.Proofs
end

section
/-! PROOFS. The controller's steps (spec/70_reset_and_hazards.md R233), each with the state it reaches, and the host
operations `setDateTime` and `getDateTime` as runs of them (R234, R235). -/

namespace Sys2Proof.Proofs

open Sys2Proof Sys2Proof.Machine Sys2Proof.Safety Sys2Proof.Laws

/-! ## A run, step by step -/

theorem runsTo_zero (s : State) : runsTo 0 s s := rfl

theorem runsTo_succ {k : Nat} {s t u : State} (h : step s = .next t) (hr : runsTo k t u) : runsTo (k + 1) s u :=
  run_succ h hr

theorem runsTo_add {j k : Nat} {s t u : State} (h : runsTo j s t) (hr : runsTo k t u) : runsTo (j + k) s u := by
  rw [runsTo, Nat.add_comm]
  exact run_add h hr

/-- The controller stands on an answering bus, with a peer at its other end, the coming actions before it and a trace
behind it. -/
structure OnBus (p : Peer) (s : State) (agenda : List ControllerAction) (trace : List BusEvent) : Prop where
  peer : s.peer = p
  bus : s.bus = .answering
  agenda : s.agenda = agenda
  trace : s.trace = trace

/-- What a register holds depends on the register space alone. -/
theorem registerByte_congr {s t : State} (h : t.registers = s.registers) (a : Nat) :
    registerByte t a = registerByte s a := by
  rw [registerByte, registerByte, h]

section Steps

variable {p : Peer} {s : State} {rest : List ControllerAction} {past : List BusEvent}

theorem OnBus.start {op : HostOp} (h : OnBus p s (.start op :: rest) past) (hop : currentOp past = none) :
    ∃ t, step s = .next t ∧ OnBus p t rest (.began op :: past) ∧ t.registers = s.registers := by
  obtain ⟨hp, hb, hag, rfl⟩ := h
  have hz : hazardOf (.began op) s.trace = none := by simp [hazardOf, hop]
  exact ⟨_, (step_act hag).trans (record_next (s := { s with agenda := rest }) hz), ⟨hp, hb, rfl, rfl⟩, rfl⟩

theorem OnBus.rd {a n : Nat} (h : OnBus p s (.rd a n :: rest) past) (hr : a + n ≤ 16) :
    ∃ t, step s = .next t ∧ OnBus p t rest (.didRead a (readBytes s a s.draws n) :: past) ∧
      t.registers = s.registers := by
  obtain ⟨hp, hb, hag, rfl⟩ := h
  exact ⟨_, step_rd hb hag hr, ⟨hp, hb, rfl, rfl⟩, rfl⟩

theorem OnBus.ex {op f : Nibble} {os : List Operand} {bs : List Byte} {w : Word}
    (h : OnBus p s (.ex op f os :: rest) past) (he : os.any (operandErrored past) = false)
    (ho : operandBytes past os = some bs) (hz : hazardOf (.evaluated (issuedWord op f bs) 0) past = none)
    (hx : ∀ u, exec (decode (issuedWord op f bs)) u = .next { u with result := w }) :
    ∃ t, step s = .next t ∧ OnBus p t rest (.evaluated (issuedWord op f bs) w :: past) ∧
      t.registers = s.registers := by
  obtain ⟨hp, hb, hag, rfl⟩ := h
  exact ⟨_, (step_act hag).trans (actEvaluate_next (s := { s with agenda := rest }) he ho hz hx),
    ⟨hp, hb, rfl, rfl⟩, rfl⟩

/-- The bytes land one after another; what is held of each is the peer's (R41, L3, U1, U6). -/
theorem OnBus.wr {a : Nat} {os : List Operand} {bs : List Byte} (h : OnBus p s (.wr a os :: rest) past)
    (hwf : Memory.wf s.registers = true) (he : os.any (operandErrored past) = false)
    (ho : operandBytes past os = some bs) (hr : a + bs.length ≤ 16) (hz : hazardOf (.wrote a bs) past = none) :
    ∃ t, step s = .next t ∧ OnBus p t rest (.wrote a bs :: past) ∧ Memory.wf t.registers = true ∧
      (∀ k b, bs[k]? = some b → ∃ draw, registerByte t (a + k) = landedByte p (a + k) b draw) ∧
      ∀ a', a' < a ∨ a + bs.length ≤ a' → registerByte t a' = registerByte s a' := by
  obtain ⟨rfl, hb, hag, rfl⟩ := h
  refine ⟨_, (step_act hag).trans (actWrite_next (s := { s with agenda := rest }) hb he ho hr hz), ⟨?_, ?_, ?_, rfl⟩,
    wf_landBytes a bs { s with agenda := rest } hwf hr, fun k b hk => ⟨Config.chipDraw (s.draws + k), ?_⟩, ?_⟩
  · exact landBytes_peer ..
  · exact (landBytes_bus ..).trans hb
  · exact landBytes_agenda ..
  · simp only [registerByte, read_landBytes_at a k b bs { s with agenda := rest } hwf hr hk, Option.getD_some]
  · rintro a' (hlt | hge)
    · simp only [registerByte, read_landBytes_below a a' bs { s with agenda := rest } hwf hr hlt]
    · simp only [registerByte, read_landBytes_above a a' bs { s with agenda := rest } hwf hr hge]

theorem OnBus.finish {op : HostOp} {r : HostReturn} (h : OnBus p s (.finish :: rest) past)
    (hop : currentOp past = some op) (hz : hazardOf .ended past = none)
    (hr : hostReturn op (sinceBegan past) = some r) :
    ∃ t, step s = .next t ∧ OnBus p t rest (.ended :: past) ∧ t.registers = s.registers ∧ t.returned = some r := by
  obtain ⟨hp, hb, hag, rfl⟩ := h
  exact ⟨_, (step_act hag).trans (actFinish_next (s := { s with agenda := rest }) hop hz hr),
    ⟨hp, hb, rfl, rfl⟩, rfl, rfl⟩

end Steps

/-! ## The word of an EX, its hazards, and the bytes of its result -/

theorem decode_issuedWord (op f : Nibble) (bs : List Byte) :
    decode (issuedWord op f bs) = decodeFields op f (bs.getD 0 0) (bs.getD 1 0) (bs.getD 2 0) (bs.getD 3 0)
      (bs.getD 4 0) (bs.getD 5 0) (bs.getD 6 0) := decode_packCommand ..

theorem opField_issuedWord (op f : Nibble) (bs : List Byte) : opField (issuedWord op f bs) = op :=
  opField_packCommand ..

theorem operandLane0_issuedWord (op f : Nibble) (bs : List Byte) : operandLane (issuedWord op f bs) 0 = bs.getD 0 0 :=
  operandLane0_packCommand ..

/-- A command that takes no control byte runs into no hazard (R202, R245). -/
theorem hazardOf_evaluated_of_no_control {op : Nibble} (f : Nibble) (bs : List Byte) (past : List BusEvent)
    (hop : op ≠ 0x0#4) (hc : controlAddress op = none) : hazardOf (.evaluated (issuedWord op f bs) 0) past = none := by
  simp [hazardOf, controlByteFresh, opField_issuedWord, hop, hc]

/-- A command on the control byte the operation has just read runs into no hazard (R245); C2_AIE_WR has its own rule. -/
theorem hazardOf_evaluated_of_just_read {op : Nibble} {a : Nat} (f : Nibble) (b : Byte) {past : List BusEvent}
    (hop : op ≠ 0x0#4) (haie : op ≠ 0x7#4) (hc : controlAddress op = some a) (hcur : (currentOp past).isSome) :
    hazardOf (.evaluated (issuedWord op f [b]) 0) (.didRead a [b] :: past) = none := by
  have hread : wasRead a b (sinceBegan (.didRead a [b] :: past)) = true := by simp [sinceBegan, wasRead]
  have hcur' : (currentOp (.didRead a [b] :: past)).isSome = true := hcur
  simp [hazardOf, controlByteFresh, opField_issuedWord, operandLane0_issuedWord, hop, haie, hc, hread, hcur']

/-- Lanes of the latest result, its STATUS being OK, are no errored operands (R247). -/
theorem any_operandErrored_latest {cw rw : Word} {past : List BusEvent} (h : resultStatus rw = statusOk)
    (lanes : List Nat) : (lanes.map (Operand.result 0)).any (operandErrored (.evaluated cw rw :: past)) = false := by
  simp [operandErrored, sinceBegan, resultsOf, h]

theorem operandByte_latest {cw rw : Word} {past : List BusEvent} {i : Nat} (h : i < 7) :
    operandByte (.evaluated cw rw :: past) (.result 0 i) = some (resultLane rw i) := if_pos h

/-! ## The stop-bit bracket (R242) -/

/-- Writes above control1 leave STOP as it was written. -/
theorem eachWrite_stopHeld {a : Nat} (ha : 0 < a) (bs : List Byte) {past : List (Nat × Byte)}
    (h : stopSet past = true) : eachWrite stopHeld (byteWrites a bs) past = true := by
  induction bs generalizing a past with
  | nil => rfl
  | cons b bs ih =>
    have hkeep : stopSet ((a, b) :: past) = stopSet past := by
      have hne : (addrControl1 == a) = false := beq_false_of_ne (Nat.ne_of_lt ha)
      rw [stopSet, stopSet, lastWritten, lastWritten, List.lookup_cons, hne]
    rw [byteWrites, eachWrite, stopHeld, h, Bool.or_true, Bool.true_and]
    exact ih (Nat.succ_pos a) (hkeep.trans h)

section Hazards

variable {past : List BusEvent} {d : DateTime} (hop : currentOp past = some (.setDateTime d))
include hop

/-- `setDateTime` may write control1 at any time: the byte is none of the time block. -/
theorem hazardOf_wrote_control1 (c1 : Byte) : hazardOf (.wrote 0 [c1]) past = none := by
  have hbracket : inStopBracket 0 [c1] (writesOf past) = true := by
    simp [inStopBracket, byteWrites, wroteTime, inTimeBlock, eachWrite, stopHeld, timeBlockWhole]
  simp [hazardOf, writeHazard, hbracket, hop]

/-- The seven bytes of the time block may go right after STOP was written 1. -/
theorem hazardOf_wrote_timeBlock {c1 : Byte} (hstop : stopBit c1 = true) (cw rw : Word) {bs : List Byte}
    (hbs : bs.length = 7) : hazardOf (.wrote 2 bs) (.evaluated cw rw :: .wrote 0 [c1] :: past) = none := by
  have hset : stopSet (writesOf (.evaluated cw rw :: .wrote 0 [c1] :: past)) = true := hstop
  have hwhole : timeBlockWhole 2 bs = true := by simp [timeBlockWhole, hbs]
  have hcur : currentOp (.evaluated cw rw :: .wrote 0 [c1] :: past) = some (.setDateTime d) := hop
  have hbracket : inStopBracket 2 bs (writesOf (.evaluated cw rw :: .wrote 0 [c1] :: past)) = true := by
    rw [inStopBracket, hset, hwhole, eachWrite_stopHeld (by decide) bs hset, Bool.or_true]
    rfl
  simp only [hazardOf, writeHazard, hbracket, hcur, Bool.not_true, Bool.false_eq_true, if_false]

/-- `setDateTime` may end right after STOP was written 0. -/
theorem hazardOf_ended_of_stop_clear {c1 : Byte} (hstop : stopBit c1 = false) :
    hazardOf .ended (.wrote 0 [c1] :: past) = none := by
  have hcur : currentOp (.wrote 0 [c1] :: past) = some (.setDateTime d) := hop
  have hreleased : stopReleased (writesOf (sinceBegan (.wrote 0 [c1] :: past))) = true := by
    simp [stopReleased, sinceBegan, writesOf, byteWrites, lastWritten, hstop]
  simp [hazardOf, endHazard, hreleased, hcur]

end Hazards

/-! ## setDateTime (R234) -/

/-- The seven bytes TIME_PACK gives for a date and time, the seconds byte first (R120). -/
def timeBytes (d : DateTime) : List Byte :=
  [enc d.seconds, enc d.minutes, enc d.hours, enc d.day, enc d.weekday, monthByte d.month d.year, yearByte d.year]

theorem decode_exStop (c1 : Byte) (b : Bool) :
    decode (issuedWord 0x5#4 (flagsOf false false false b) [c1]) = .c1StopWr c1 b := by
  rw [decode_issuedWord]
  cases b <;> rfl

/-- Control1 holds what was written of it, with either peer. -/
theorem landedByte_control1 (p : Peer) (b draw : Byte) : landedByte p 0 b draw = b := by
  cases p with
  | simulatedStore => rfl
  | realChip => exact realChipByte_other draw rfl (by decide) (by decide)

theorem readBytes_control1 (s : State) (draw : Nat) : readBytes s 0 draw 1 = [registerByte s 0] :=
  congrArg (fun b => [b]) (readByte_control s.peer 0 _ _ (by decide))

section SetDateTime

variable {p : Peer} {s : State} {rest : List ControllerAction} {past : List BusEvent} {d : DateTime}

/-- Three actions of `setDateTime` read control1 and write it back with another stop bit (R130, R234). -/
theorem OnBus.writeStop {b : Bool} (h : OnBus p s (.rd 0 1 :: exStop b :: .wr 0 [.result 0 0] :: rest) past)
    (hwf : Memory.wf s.registers = true) (hop : currentOp past = some (.setDateTime d)) :
    ∃ t past', runsTo 3 s t ∧ OnBus p t rest (.wrote 0 [stopWritten (registerByte s 0) b] :: past') ∧
      currentOp past' = some (.setDateTime d) ∧ Memory.wf t.registers = true ∧
      registerByte t 0 = stopWritten (registerByte s 0) b ∧ ∀ a, 1 ≤ a → registerByte t a = registerByte s a := by
  obtain ⟨t₁, hs₁, h₁, hr₁⟩ := h.rd (by decide)
  rw [readBytes_control1] at h₁
  obtain ⟨t₂, hs₂, h₂, hr₂⟩ := h₁.ex rfl rfl
    (hazardOf_evaluated_of_just_read _ _ (by decide) (by decide) rfl (Option.isSome_of_eq_some hop))
    (fun u => by rw [decode_exStop, exec_c1StopWr, complete_eq])
  have hlane := resultLane0_packResult statusOk false { r0 := stopWritten (registerByte s 0) b }
  obtain ⟨t₃, hs₃, h₃, hwf₃, hland, hframe⟩ := h₂.wr (by rw [hr₂, hr₁]; exact hwf)
    (any_operandErrored_latest (resultStatus_packResult ..) [0])
    (by rw [operandBytes, operandByte_latest (by decide), hlane, operandBytes]) (by simp)
    (hazardOf_wrote_control1 hop _)
  obtain ⟨draw, hat⟩ := hland 0 _ rfl
  refine ⟨t₃, _, runsTo_succ hs₁ (runsTo_succ hs₂ (runsTo_succ hs₃ (runsTo_zero _))), h₃, hop, hwf₃,
    hat.trans (landedByte_control1 ..), fun a ha => ?_⟩
  rw [hframe a (.inr ha), registerByte_congr (hr₂.trans hr₁)]

/-- Two actions of `setDateTime` pack the date and time and write the time block, STOP having been written 1 (R234). -/
theorem OnBus.writeTime {c1 : Byte} (h : OnBus p s
      (.ex 0x3#4 0#4 [.lit d.seconds, .lit d.minutes, .lit d.hours, .lit d.day, .lit d.weekday, .lit d.month,
        .lit d.year] ::
      .wr 2 [.result 0 0, .result 0 1, .result 0 2, .result 0 3, .result 0 4, .result 0 5, .result 0 6] :: rest)
      (.wrote 0 [c1] :: past))
    (hwf : Memory.wf s.registers = true) (hop : currentOp past = some (.setDateTime d)) (hstop : stopBit c1 = true) :
    ∃ t past', runsTo 2 s t ∧ OnBus p t rest past' ∧ currentOp past' = some (.setDateTime d) ∧
      Memory.wf t.registers = true ∧
      (∀ k b, (timeBytes d)[k]? = some b → ∃ draw, registerByte t (2 + k) = landedByte p (2 + k) b draw) ∧
      ∀ a, a < 2 ∨ 9 ≤ a → registerByte t a = registerByte s a := by
  obtain ⟨t₁, hs₁, h₁, hr₁⟩ := h.ex rfl rfl (hazardOf_evaluated_of_no_control _ _ _ (by decide) rfl)
    (fun u => by rw [decode_issuedWord]; exact exec_timePack ..)
  obtain ⟨t₂, hs₂, h₂, hwf₂, hland, hframe⟩ := h₁.wr (bs := timeBytes d) (by rw [hr₁]; exact hwf)
    (any_operandErrored_latest (resultStatus_packResult ..) [0, 1, 2, 3, 4, 5, 6])
    (by
      simp only [operandBytes, operandByte_latest, Nat.reduceLT, resultLane0_packResult, resultLane1_packResult,
        resultLane2_packResult, resultLane3_packResult, resultLane4_packResult, resultLane5_packResult,
        resultLane6_packResult]
      rfl)
    (by simp [timeBytes]) (hazardOf_wrote_timeBlock hop hstop _ _ rfl)
  exact ⟨t₂, _, runsTo_succ hs₁ (runsTo_succ hs₂ (runsTo_zero _)), h₂, hop, hwf₂, hland, fun a ha =>
    (hframe a ha).trans (registerByte_congr hr₁ a)⟩

theorem stopWritten_true_false (c1 : Byte) : stopWritten (stopWritten c1 true) false = c1 &&& 0xDF#8 := by
  simp only [stopWritten, if_true, Bool.false_eq_true, if_false, BitVec.and_or_distrib_right]
  exact BitVec.or_zero

/-- `setDateTime` runs free of faults: the time block takes the packed bytes, control1 ends with STOP clear, and no
other register is touched (R234). -/
theorem OnBus.setDateTime (h : OnBus p s (hostOpActions (.setDateTime d) ++ rest) past)
    (hwf : Memory.wf s.registers = true) (hop : currentOp past = none) :
    ∃ t past', runsTo 10 s t ∧ OnBus p t rest past' ∧ currentOp past' = none ∧ Memory.wf t.registers = true ∧
      registerByte t 0 = registerByte s 0 &&& 0xDF#8 ∧
      (∀ k b, (timeBytes d)[k]? = some b → ∃ draw, registerByte t (2 + k) = landedByte p (2 + k) b draw) ∧
      ∀ a, a = 1 ∨ 9 ≤ a → registerByte t a = registerByte s a := by
  obtain ⟨t₁, hs₁, h₁, hr₁⟩ := h.start hop
  obtain ⟨t₂, past₂, hs₂, h₂, hop₂, hwf₂, hc₂, hframe₂⟩ := h₁.writeStop (hr₁ ▸ hwf) rfl
  obtain ⟨t₃, past₃, hs₃, h₃, hop₃, hwf₃, hland, hframe₃⟩ := h₂.writeTime hwf₂ hop₂ (stopBit_stopWritten _ true)
  obtain ⟨t₄, past₄, hs₄, h₄, hop₄, hwf₄, hc₄, hframe₄⟩ := h₃.writeStop hwf₃ hop₃
  obtain ⟨t₅, hs₅, h₅, hr₅, -⟩ := h₄.finish hop₄ (hazardOf_ended_of_stop_clear hop₄ (stopBit_stopWritten _ false)) rfl
  refine ⟨t₅, _, runsTo_succ hs₁ (runsTo_add hs₂ (runsTo_add hs₃ (runsTo_add hs₄ (runsTo_succ hs₅ (runsTo_zero _))))),
    h₅, rfl, hr₅ ▸ hwf₄, ?_, fun k b hk => ?_, fun a ha => ?_⟩
  · rw [registerByte_congr hr₅, hc₄, hframe₃ 0 (by decide), hc₂, registerByte_congr hr₁, stopWritten_true_false]
  · obtain ⟨draw, hat⟩ := hland k b hk
    exact ⟨draw, by rw [registerByte_congr hr₅, hframe₄ _ (by omega), hat]⟩
  · rw [registerByte_congr hr₅, hframe₄ a (by omega), hframe₃ a (by omega), hframe₂ a (by omega),
      registerByte_congr hr₁]

end SetDateTime

/-! ## getDateTime (R235) -/

/-- What a read gives depends on the peer and the registers alone, the free values aside. -/
theorem readBytes_congr {s t : State} (hp : t.peer = s.peer) (hr : t.registers = s.registers) (a draw n : Nat) :
    readBytes t a draw n = readBytes s a draw n := by
  induction n generalizing a draw with
  | zero => rfl
  | succ n ih => rw [readBytes, readBytes, hp, registerByte_congr hr, ih]

/-- A TIME_UNPACK gives its fields back, or the error arm when it raised (R201, R235). -/
theorem hostReturn_getDateTime (f : Nibble) (bs : List Byte) (w : Word) (a : Nat) (bytes : List Byte) :
    hostReturn .getDateTime [.evaluated (issuedWord 0x4#4 f bs) w, .didRead a bytes] =
      some (if resultStatus w = 1#2 then .clockIntegrityError else dateTimeOf w) := by
  have hraised : unpackRaised [.evaluated (issuedWord 0x4#4 f bs) w, .didRead a bytes] = (resultStatus w == 1#2) :=
    Bool.or_false _
  have hlatest : latestResult 0x4#4 [.evaluated (issuedWord 0x4#4 f bs) w, .didRead a bytes] = some w :=
    if_pos (beq_of_eq (opField_issuedWord ..))
  rw [hostReturn, hraised, hlatest]
  by_cases h : resultStatus w = 1#2
  · rw [if_pos h, if_pos (beq_of_eq h)]
  · rw [if_neg h, if_neg (by simpa using h), Option.map_some]

/-- `getDateTime` runs free of faults and changes no register: it returns what TIME_UNPACK makes of the seven bytes
read (R235). -/
theorem OnBus.getDateTime {p : Peer} {s : State} {rest : List ControllerAction} {past : List BusEvent}
    (h : OnBus p s (hostOpActions .getDateTime ++ rest) past) (hop : currentOp past = none) :
    ∃ t past' draw w, runsTo 4 s t ∧ OnBus p t rest past' ∧ currentOp past' = none ∧ t.registers = s.registers ∧
      (∀ u, exec (decode (issuedWord 0x4#4 0#4 (readBytes s 2 draw 7))) u = .next { u with result := w }) ∧
      t.returned = some (if resultStatus w = 1#2 then .clockIntegrityError else dateTimeOf w) := by
  obtain ⟨t₁, hs₁, h₁, hr₁⟩ := h.start hop
  obtain ⟨t₂, hs₂, h₂, hr₂⟩ := h₁.rd (by decide)
  rw [readBytes_congr (h₁.peer.trans h.peer.symm) hr₁] at h₂
  obtain ⟨w, hw⟩ := exec_next (decode (issuedWord 0x4#4 0#4 (readBytes s 2 t₁.draws 7)))
  obtain ⟨t₃, hs₃, h₃, hr₃⟩ := h₂.ex rfl rfl (hazardOf_evaluated_of_no_control _ _ _ (by decide) rfl) hw
  obtain ⟨t₄, hs₄, h₄, hr₄, hret⟩ := h₃.finish rfl rfl (hostReturn_getDateTime ..)
  exact ⟨t₄, _, t₁.draws, w, runsTo_succ hs₁ (runsTo_succ hs₂ (runsTo_succ hs₃ (runsTo_succ hs₄ (runsTo_zero _)))),
    h₄, rfl, hr₄.trans (hr₃.trans (hr₂.trans hr₁)), hw, hret⟩

/-! ## setDateTime, then getDateTime -/

/-- The simulated store gives back the bytes it holds (L3). -/
theorem readBytes_of_held {s : State} (hp : s.peer = .simulatedStore) {a : Nat} {bs : List Byte} (draw : Nat)
    (h : ∀ k b, bs[k]? = some b → registerByte s (a + k) = b) : readBytes s a draw bs.length = bs := by
  induction bs generalizing a draw with
  | nil => rfl
  | cons b bs ih =>
    have hrest : readBytes s (a + 1) (draw + 1) bs.length = bs :=
      ih (draw + 1) fun k c hk => by rw [Nat.add_right_comm]; exact h (k + 1) c hk
    rw [List.length_cons, readBytes, hrest, hp, readByte, ← h 0 b rfl, Nat.add_zero]

/-- TIME_UNPACK of the packed bytes of a valid date and time, as the word a controller issues (R128). -/
theorem exec_issued_timeUnpack {d : DateTime} (hd : validDateTime d = true) (s : State) :
    exec (decode (issuedWord 0x4#4 0#4 (timeBytes d))) s =
      complete false ⟨d.seconds, d.minutes, d.hours, d.day, d.weekday, d.month, d.year⟩ s := by
  rw [decode_issuedWord]
  exact exec_timeUnpack_of_packed hd s

/-- The fields a caller gets of a result whose RFLAG is clear: the year is lane 6 alone (R127, R235). -/
theorem dateTimeOf_packResult (l : Lanes) : dateTimeOf (packResult statusOk false l) =
    .dateTime l.r0 l.r1 l.r2 l.r3 l.r4 l.r5 (l.r6.setWidth 9) := by
  have hyear : BitVec.ofBool false ++ l.r6 = l.r6.setWidth 9 := by
    rw [BitVec.append_def]
    simp
  rw [dateTimeOf, resultFlag_packResult, resultLane0_packResult, resultLane1_packResult, resultLane2_packResult,
    resultLane3_packResult, resultLane4_packResult, resultLane5_packResult, resultLane6_packResult, hyear]

/-- Settles O55: the store holds the packed bytes, and `getDateTime` reads and unpacks them. -/
theorem setDateTimeThenGetReturnsIt : Obligations.SetDateTimeThenGetReturnsIt := by
  intro s d rest hp hb hwf hop hd hag
  rw [List.append_assoc] at hag
  have h : OnBus .simulatedStore s _ s.trace := ⟨hp, hb, hag, rfl⟩
  obtain ⟨t, past, hset, ht, hopt, -, hcontrol1, hland, hframe⟩ := h.setDateTime hwf hop
  obtain ⟨u, _, draw, w, hget, hu, -, hregs, hw, hret⟩ := ht.getDateTime hopt
  have hread : readBytes t 2 draw 7 = timeBytes d := readBytes_of_held ht.peer draw fun k b hk => by
    obtain ⟨_, hat⟩ := hland k b hk
    exact hat
  have hword : w = packResult statusOk false ⟨d.seconds, d.minutes, d.hours, d.day, d.weekday, d.month, d.year⟩ := by
    have hnext := hw t
    rw [hread, exec_issued_timeUnpack hd, complete_eq] at hnext
    injection hnext with hstate
    exact (congrArg State.result hstate).symm
  refine ⟨u, runsTo_add hset hget, hu.agenda, ?_, ?_, fun a ha => ?_⟩
  · rw [hret, hword, resultStatus_packResult, if_neg (by decide), dateTimeOf_packResult]
  · rw [registerByte_congr hregs, hcontrol1]
  · rw [registerByte_congr hregs, hframe a ha]

end Sys2Proof.Proofs
end

section
/-! PROOFS. The alarm fields and the flag bits of control2 (spec/42_alarm_fields.md, spec/43_timer_fields.md):
ALARM_PACK, C2_AIE_WR, and the readers and clearers of AF and TF. -/

namespace Sys2Proof.Proofs

open Sys2Proof Sys2Proof.Machine Sys2Proof.Safety Sys2Proof.Laws

/-- `OP` selects the row of the decoder (R69). -/
theorem decode_of_opField {w : Word} {op : Nibble} (h : opField w = op) :
    decode w = decodeFields op (flagField w) (operandLane w 0) (operandLane w 1) (operandLane w 2) (operandLane w 3)
      (operandLane w 4) (operandLane w 5) (operandLane w 6) := by
  rw [decode, h]

/-! ## ALARM_PACK -/

theorem exec_alarmPack (k : Nibble) (min hour day wday : Byte) (s : State) :
    exec (.alarmPack k min hour day wday) s = complete false
      { r0 := alarmField (k.getLsbD 0) min, r1 := alarmField (k.getLsbD 1) hour,
        r2 := alarmField (k.getLsbD 2) day, r3 := alarmField (k.getLsbD 3) wday } s := rfl

/-- ALARM_PACK completes with one alarm field per mask bit (R151, R152) and with lanes 4 to 6 zero. -/
theorem exists_result_of_alarmPack (k : Nibble) (min hour day wday : Byte) (s : State) :
    ∃ t, exec (.alarmPack k min hour day wday) s = .next t ∧ OnlyResultChanged s t ∧
      ResultIs t.result 0#2 false [alarmField (k.getLsbD 0) min, alarmField (k.getLsbD 1) hour,
        alarmField (k.getLsbD 2) day, alarmField (k.getLsbD 3) wday] := by
  refine ⟨_, exec_alarmPack k min hour day wday s, rfl, resultIs_congr (resultIs_packResult _ _ _) fun i hi => ?_⟩
  interval_cases i <;> rfl

/-- Lane `j` is the alarm field of mask bit `j` and value `j`. -/
theorem exists_lanes_of_alarmPack (k : Nibble) (a : Fin 4 → Byte) (s : State) :
    ∃ t, exec (.alarmPack k (a 0) (a 1) (a 2) (a 3)) s = .next t ∧
      ∀ j : Fin 4, resultLane t.result j = alarmField (k.getLsbD j) (a j) := by
  obtain ⟨t, ht, -, -, -, -, hlane⟩ := exists_result_of_alarmPack k (a 0) (a 1) (a 2) (a 3) s
  refine ⟨t, ht, fun j => (hlane j (by omega)).trans ?_⟩
  fin_cases j <;> rfl

/-- Settles O26: each lane is the alarm field of its own mask bit and its own value. -/
theorem alarmFieldIndependence : Obligations.AlarmFieldIndependence := by
  intro k k' a a' s s'
  obtain ⟨t, ht, hlane⟩ := exists_lanes_of_alarmPack k a s
  obtain ⟨t', ht', hlane'⟩ := exists_lanes_of_alarmPack k' a' s'
  refine ⟨t, t', ht, ht', fun j => ⟨fun hoff => ?_, fun hbit hval => ?_⟩⟩
  · rw [hlane, hoff]
    rfl
  · rw [hlane, hlane', hbit, hval]

/-- Settles O25: an alarm field is the BCD byte or the sentinel, by its mask bit. -/
theorem alarmPackPacksTheFields : Obligations.AlarmPackPacksTheFields :=
  ⟨exists_result_of_alarmPack, fun _ h => decode_of_opField h⟩

/-! ## One bit of a control byte -/

theorem getLsbD_setBit (c : Byte) {j k : Nat} (hk : k < 8) :
    (c ||| BitVec.twoPow 8 j).getLsbD k = if k = j then true else c.getLsbD k := by
  rw [BitVec.getLsbD_or, BitVec.getLsbD_twoPow]
  split
  · next h => simp [h, h ▸ hk]
  · next h => simp [Ne.symm h]

theorem getLsbD_clearBit (c : Byte) {j k : Nat} (hk : k < 8) :
    (c &&& ~~~BitVec.twoPow 8 j).getLsbD k = if k = j then false else c.getLsbD k := by
  rw [BitVec.getLsbD_and, BitVec.getLsbD_not, BitVec.getLsbD_twoPow]
  split
  · next h => simp [h, h ▸ hk]
  · next h => simp [hk, Ne.symm h]

/-- What clearing a bit changes is that bit where it was set, and nothing where it was clear (R159). -/
theorem clearBit_xor (c : Byte) (j : Nat) :
    (c &&& ~~~BitVec.twoPow 8 j) ^^^ c = 0#8 ∨ (c &&& ~~~BitVec.twoPow 8 j) ^^^ c = BitVec.twoPow 8 j := by
  have hxor : (c &&& ~~~BitVec.twoPow 8 j) ^^^ c = c &&& BitVec.twoPow 8 j := by
    apply BitVec.eq_of_getLsbD_eq
    intro i hi
    rw [BitVec.getLsbD_xor, BitVec.getLsbD_and, BitVec.getLsbD_and, BitVec.getLsbD_not]
    cases c.getLsbD i <;> simp [hi]
  rw [hxor, BitVec.and_twoPow]
  split
  · exact .inr rfl
  · exact .inl rfl

/-! ## C2_AIE_WR -/

theorem getLsbD_aieWritten (c2 : Byte) (ie : Bool) {k : Nat} (hk : k < 8) :
    (aieWritten c2 ie).getLsbD k = if k = 1 then ie else c2.getLsbD k := by
  cases ie with
  | true => exact getLsbD_setBit (j := 1) c2 hk
  | false => exact getLsbD_clearBit (j := 1) c2 hk

/-- Settles O27, by the bits of the byte in lane 0. -/
theorem alarmInterruptEnableWrite : Obligations.AlarmInterruptEnableWrite := by
  refine ⟨fun c2 ie s => ⟨_, exec_c2AieWr c2 ie s, rfl, ?_⟩, fun w h => decode_of_opField h⟩
  rw [resultLane0_packResult]
  exact ⟨resultIs_lane0 _, fun k hk => getLsbD_aieWritten c2 ie hk⟩

/-! ## The flag readers and clearers -/

theorem exec_c2AfGet (c2 : Byte) (s : State) : exec (.c2AfGet c2) s = complete (afBit c2) {} s := rfl

theorem exec_c2TfGet (c2 : Byte) (s : State) : exec (.c2TfGet c2) s = complete (tfBit c2) {} s := rfl

/-- A result of a flag alone has every lane 0 (R67). -/
theorem resultIs_flag (r : Bool) : ResultIs (packResult statusOk r {}) 0#2 r [] :=
  resultIs_congr (resultIs_packResult _ _ _) (by decide)

/-- Settles O28: each reader packs its bit as RFLAG over zero lanes. -/
theorem flagReadersGiveTheirBit : Obligations.FlagReadersGiveTheirBit := by
  refine ⟨fun c2 s => ?_, fun c2 s => ?_, fun w h => decode_of_opField h, fun w h => decode_of_opField h⟩
  · exact ⟨_, exec_c2AfGet c2 s, rfl, resultIs_flag (afBit c2)⟩
  · exact ⟨_, exec_c2TfGet c2 s, rfl, resultIs_flag (tfBit c2)⟩

/-- An instruction that gives a byte with bit `j` cleared changes that bit at most (R158, R159, R180, R181). -/
theorem exists_result_of_clearBit {i : Instr} {s : State} {c2 : Byte} {j : Nat}
    (h : exec i s = complete false { r0 := c2 &&& ~~~BitVec.twoPow 8 j } s) :
    ∃ t, exec i s = .next t ∧ OnlyResultChanged s t ∧ ResultIs t.result 0#2 false [resultLane t.result 0] ∧
      (∀ k, k < 8 → (resultLane t.result 0).getLsbD k = if k = j then false else c2.getLsbD k) ∧
      (resultLane t.result 0 ^^^ c2 = 0#8 ∨ resultLane t.result 0 ^^^ c2 = BitVec.twoPow 8 j) := by
  refine ⟨_, h, rfl, ?_⟩
  rw [resultLane0_packResult]
  exact ⟨resultIs_lane0 _, fun k hk => getLsbD_clearBit c2 hk, clearBit_xor c2 j⟩

/-- Settles O29: the masks 0xF7 and 0xFB clear bit 3 and bit 2. -/
theorem flagClearersClearOneBit : Obligations.FlagClearersClearOneBit := by
  refine ⟨fun c2 s => ?_, fun c2 s => ?_, fun w h => decode_of_opField h, fun w h => decode_of_opField h⟩
  · exact exists_result_of_clearBit (j := 3) (exec_c2AfClr c2 s)
  · exact exists_result_of_clearBit (j := 2) (exec_c2TfClr c2 s)

end Sys2Proof.Proofs
end

section
/-! PROOFS. The timer fields (spec/43_timer_fields.md): C2_TMR_CFG, TCTL_PACK and TCNT_PACK. -/

namespace Sys2Proof.Proofs

open Sys2Proof Sys2Proof.Machine Sys2Proof.Safety Sys2Proof.Laws

/-! ## C2_TMR_CFG -/

/-- A byte that holds one requested bit has that bit and no other. -/
theorem getLsbD_requestedBit (b : Bool) {j k : Nat} (hk : k < 8) :
    (if b then BitVec.twoPow 8 j else 0#8).getLsbD k = (decide (k = j) && b) := by
  cases b with
  | true => simp [hk, eq_comm]
  | false => simp

/-- TI/TP and TIE are as requested, TF is clear, and the mask 0xEA keeps every other bit (R170). -/
theorem getLsbD_timerC2 (c2 : Byte) (rep ie : Bool) {k : Nat} (hk : k < 8) :
    (timerC2 c2 rep ie).getLsbD k =
      if k = 4 then rep else if k = 2 then false else if k = 0 then ie else c2.getLsbD k := by
  have hrep : (if rep then 0x10#8 else 0x00#8).getLsbD k = (decide (k = 4) && rep) :=
    getLsbD_requestedBit (j := 4) rep hk
  have hie : (if ie then 0x01#8 else 0x00#8).getLsbD k = (decide (k = 0) && ie) :=
    getLsbD_requestedBit (j := 0) ie hk
  rw [timerC2, BitVec.getLsbD_or, BitVec.getLsbD_or, BitVec.getLsbD_and, hrep, hie]
  interval_cases k <;> simp

/-- Settles O30, by the bits of the byte in lane 0. -/
theorem timerConfigurationWrite : Obligations.TimerConfigurationWrite := by
  refine ⟨fun c2 rep ie s => ⟨_, exec_c2TmrCfg c2 rep ie s, rfl, ?_⟩, fun w h => decode_of_opField h⟩
  rw [resultLane0_packResult]
  exact ⟨resultIs_lane0 _, fun k hk => getLsbD_timerC2 c2 rep ie hk⟩

/-! ## TCTL_PACK -/

/-- The enable bit lies above the clock-source code, so that OR is a sum (R173). -/
theorem timerCtl_eq (en : Bool) (src : BitVec 2) :
    timerCtl en src = if en then BitVec.ofNat 8 (0x80 + src.toNat) else 0x00#8 := by
  cases en with
  | true => revert src; decide
  | false => rfl

/-- Settles O31: the timer-control byte is packed over zero lanes. -/
theorem timerControlPack : Obligations.TimerControlPack := by
  refine ⟨fun en src s => ⟨_, exec_tctlPack en src s, rfl, ?_⟩, fun w h => decode_of_opField h⟩
  rw [← timerCtl_eq]
  exact resultIs_lane0 _

/-! ## TCNT_PACK -/

theorem exec_tcntPack (n : Byte) (s : State) : exec (.tcntPack n) s = complete false { r0 := n } s := rfl

/-- Settles O32: the counter is packed as it stands over zero lanes. -/
theorem timerCounterPack : Obligations.TimerCounterPack :=
  ⟨fun n s => ⟨_, exec_tcntPack n s, rfl, resultIs_lane0 n⟩, fun _ h => decode_of_opField h⟩

end Sys2Proof.Proofs
end

section
/-! PROOFS. The clock-output field (spec/44_clkout_fields.md): CLKOUT_PACK, and the host operation
`setClkoutFrequency` as a run (R240). -/

namespace Sys2Proof.Proofs

open Sys2Proof Sys2Proof.Machine Sys2Proof.Safety Sys2Proof.Laws

/-! ## CLKOUT_PACK -/

/-- The enable bit lies above the frequency code, so that OR is a sum, whether or not the output is enabled (R190,
R192). -/
theorem clkoutByte_eq (en : Bool) (freq : BitVec 2) :
    clkoutByte en freq = BitVec.ofNat 8 (freq.toNat + if en then 0x80 else 0x00) := by
  revert en freq
  decide

/-- Settles O33: the clkout byte is packed over zero lanes. -/
theorem clockOutputPack : Obligations.ClockOutputPack := by
  refine ⟨fun en freq s => ⟨_, exec_clkoutPack en freq s, rfl, ?_⟩, fun w h => decode_of_opField h⟩
  rw [← clkoutByte_eq]
  exact resultIs_lane0 _

/-! ## setClkoutFrequency (R240) -/

/-- The byte holds nothing but the code in bits 1:0 and the enable bit: bits 6:2 are 0 (R190). -/
theorem clkoutByte_and_unused (en : Bool) (q : BitVec 2) : clkoutByte en q &&& 0x7C#8 = 0x00#8 := by
  revert en q
  decide

/-- The flag operand of CLKOUT_PACK carries the code and the enable bit (R64). -/
theorem decode_exClkoutPack (q : BitVec 2) (en : Bool) :
    decode (issuedWord 0xF#4 (codedFlags q en) []) = .clkoutPack en q := by
  rw [decode_issuedWord]
  revert en q
  decide

/-- The clkout register holds what was written of it, with either peer: it takes every byte and has no flag of the
chip's (R32, R35). -/
theorem landedByte_clkout (p : Peer) (b draw : Byte) : landedByte p 0x0D b draw = b := by
  cases p with
  | simulatedStore => rfl
  | realChip => exact realChipByte_other draw rfl (by decide) (by decide)

/-- A single byte outside the time block is under no stop-bit bracket (R242). -/
theorem inStopBracket_of_not_timeBlock {a : Nat} (ha : inTimeBlock a = false) (b : Byte)
    (past : List (Nat × Byte)) : inStopBracket a [b] past = true := by
  simp [inStopBracket, byteWrites, wroteTime, ha, eachWrite, stopHeld, timeBlockWhole]

section SetClkoutFrequency

variable {p : Peer} {s : State} {rest : List ControllerAction} {past : List BusEvent} {c : ClkoutConfig}

/-- `setClkoutFrequency` may write the clkout register at any time: it is none of the time block, and no order of
writes binds the operation (R242 to R244). -/
theorem hazardOf_wrote_clkout (hop : currentOp past = some (.setClkoutFrequency c)) (b : Byte) :
    hazardOf (.wrote 0x0D [b]) past = none := by
  have hbracket := inStopBracket_of_not_timeBlock (a := 0x0D) rfl b (writesOf past)
  simp [hazardOf, writeHazard, hbracket, hop]

/-- `setClkoutFrequency` may end after its one write: it has not touched the time block (R242). -/
theorem hazardOf_ended_of_clkout_written (cw rw : Word) (b : Byte) :
    hazardOf .ended (.wrote 0x0D [b] :: .evaluated cw rw :: .began (.setClkoutFrequency c) :: past) = none := rfl

/-- `setClkoutFrequency` runs free of faults: the clkout register takes the packed byte, with either peer, and no other
register is touched (R240). -/
theorem OnBus.setClkoutFrequency (h : OnBus p s (hostOpActions (.setClkoutFrequency c) ++ rest) past)
    (hwf : Memory.wf s.registers = true) (hop : currentOp past = none) :
    ∃ t past', runsTo 4 s t ∧ OnBus p t rest past' ∧ currentOp past' = none ∧ Memory.wf t.registers = true ∧
      registerByte t 0x0D = clkoutByte c.enabled (frequencyCode c.frequency) ∧
      ∀ a, a ≠ 0x0D → registerByte t a = registerByte s a := by
  obtain ⟨t₁, hs₁, h₁, hr₁⟩ := h.start hop
  obtain ⟨t₂, hs₂, h₂, hr₂⟩ := h₁.ex rfl rfl (hazardOf_evaluated_of_no_control _ _ _ (by decide) rfl)
    (fun u => by rw [decode_exClkoutPack, exec_clkoutPack, complete_eq])
  have hlane := resultLane0_packResult statusOk false { r0 := clkoutByte c.enabled (frequencyCode c.frequency) }
  obtain ⟨t₃, hs₃, h₃, hwf₃, hland, hframe⟩ := h₂.wr (by rw [hr₂, hr₁]; exact hwf)
    (any_operandErrored_latest (resultStatus_packResult ..) [0])
    (by rw [operandBytes, operandByte_latest (by decide), hlane, operandBytes]) (by simp [addrClkout])
    (hazardOf_wrote_clkout rfl _)
  obtain ⟨t₄, hs₄, h₄, hr₄, -⟩ := h₃.finish rfl (hazardOf_ended_of_clkout_written ..) rfl
  obtain ⟨draw, hat⟩ := hland 0 _ rfl
  refine ⟨t₄, _, runsTo_succ hs₁ (runsTo_succ hs₂ (runsTo_succ hs₃ (runsTo_succ hs₄ (runsTo_zero _)))), h₄, rfl,
    hr₄ ▸ hwf₃, ?_, fun a ha => ?_⟩
  · rw [registerByte_congr hr₄]
    exact hat.trans (landedByte_clkout ..)
  · rw [registerByte_congr hr₄, hframe a (Nat.lt_or_gt_of_ne ha), registerByte_congr (hr₂.trans hr₁)]

end SetClkoutFrequency

/-- Settles O59: the run leaves the packed byte in the clkout register, and the tables read it back. -/
theorem setClkoutFrequencyWritesOneByte : Obligations.SetClkoutFrequencyWritesOneByte := by
  intro s c rest hb hwf hop hag
  have h : OnBus s.peer s _ s.trace := ⟨rfl, hb, hag, rfl⟩
  obtain ⟨t, _, hrun, ht, -, -, hbyte, hframe⟩ := h.setClkoutFrequency hwf hop
  exact ⟨t, hrun, ht.agenda, by rw [hbyte, frequencyOf_clkoutByte], by rw [hbyte, clkoutEnableBit_clkoutByte],
    by rw [hbyte, clkoutByte_and_unused], hframe⟩

end Sys2Proof.Proofs
end

section
/-! PROOFS. The exceptions (spec/60_exceptions.md): an exception leaves nothing behind (R207, R208), reset meets the
invariant, and a controller's EX of the reserved code faults (R202, U4). -/

namespace Sys2Proof.Proofs

open Sys2Proof Sys2Proof.Machine Sys2Proof.Safety Sys2Proof.Laws

/-! ## The command after an exception -/

/-- The word a command gives in one state it gives in every other, whatever result stood there before (R20). -/
theorem exec_result_transfer {j : Instr} {t u : State} (h : exec j t = .next u) (s : State) :
    exec j s = .next { s with result := u.result } := by
  obtain ⟨w, hw⟩ := exec_next j
  have hu : { t with result := w } = u := Host.Outcome.next.inj ((hw t).symm.trans h)
  rw [hw s, ← hu]

/-- Settles O13: the state after an exception differs in the result word, which no command reads. -/
theorem exceptionLeavesNothingBehind : Obligations.ExceptionLeavesNothingBehind :=
  fun _ _ s _ _ _ _ hj => exec_result_transfer hj s

/-! ## Reset -/

/-- Settles O40: the reset result is one the codec gives, for a step from reset changes nothing; no register is listed
and the trace is empty. -/
theorem resetMeetsTheInvariant : Obligations.ResetMeetsTheInvariant := by
  obtain ⟨hstep, -, -⟩ := resetLeavesNothingToSet
  rw [step_idle rfl] at hstep
  exact (inv_iff _).mpr ⟨resultLegal_of_exec hstep, wf_reset, rfl⟩

/-! ## A controller that issues the reserved code -/

/-- A literal is no lane of an errored result (R247). -/
theorem any_operandErrored_lit (past : List BusEvent) (bs : List Byte) :
    (bs.map Operand.lit).any (operandErrored past) = false := by
  induction bs with
  | nil => rfl
  | cons b bs ih => exact ih

/-- The controller holds every literal. -/
theorem operandBytes_lit (past : List BusEvent) (bs : List Byte) :
    operandBytes past (bs.map Operand.lit) = some bs := by
  induction bs with
  | nil => rfl
  | cons b bs ih => rw [List.map_cons, operandBytes, ih, operandByte]

/-- An EX whose operands are held and not errored, and whose command runs into a hazard, faults for that hazard. -/
theorem actEvaluate_fault {op f : Nibble} {os : List Operand} {bs : List Byte} {s : State} {e : Fault}
    (he : os.any (operandErrored s.trace) = false) (ho : operandBytes s.trace os = some bs)
    (hz : hazardOf (.evaluated (issuedWord op f bs) 0) s.trace = some e) : actEvaluate op f os s = .fault e := by
  simp only [actEvaluate, withOperands, he, ho, issue, hz, Bool.false_eq_true, if_false]

/-- The reserved code is a hazard whatever the trace holds (R202, U4). -/
theorem hazardOf_evaluated_reserved (f : Nibble) (bs : List Byte) (past : List BusEvent) :
    hazardOf (.evaluated (issuedWord 0x0#4 f bs) 0) past = some .illegalCommandIssued := by
  simp only [hazardOf, opField_issuedWord, beq_self_eq_true, if_true]

/-- Settles O45: literal operands stop nothing, so the EX comes to its hazard. -/
theorem controllerMayNotIssueTheReservedCode : Obligations.ControllerMayNotIssueTheReservedCode := by
  intro s f bs rest hag
  rw [step_act hag]
  exact actEvaluate_fault (s := { s with agenda := rest }) (any_operandErrored_lit _ bs) (operandBytes_lit _ bs)
    (hazardOf_evaluated_reserved f bs _)

end Sys2Proof.Proofs
end

section
/-! PROOFS. The hazards (spec/70_reset_and_hazards.md section 3): what an action that goes on says of the trace behind
it, and the stops of a lane, a start and a bus. -/

namespace Sys2Proof.Proofs

open Sys2Proof Sys2Proof.Machine Sys2Proof.Safety Sys2Proof.Laws

/-! ## An EX that goes on (R233, R40) -/

/-- Everything a step that evaluates can do: the word of its operands runs into no hazard, the codec gives its result,
and the evaluation enters the trace. -/
theorem step_ex_inv {s t : State} {op f : Nibble} {lanes : List Operand} {rest : List ControllerAction}
    (hag : s.agenda = .ex op f lanes :: rest) (h : step s = .next t) :
    ∃ bs w, operandBytes s.trace lanes = some bs ∧ hazardOf (.evaluated (issuedWord op f bs) 0) s.trace = none ∧
      (∀ u, exec (decode (issuedWord op f bs)) u = .next { u with result := w }) ∧
      t = { s with
        command := issuedWord op f bs, result := w, agenda := rest
        trace := .evaluated (issuedWord op f bs) w :: s.trace } := by
  rw [step_act hag] at h
  obtain ⟨-, bs, hbs, hissue⟩ := withOperands_inv h
  obtain ⟨hz, u, hu, rfl⟩ := issue_inv hissue
  obtain ⟨w, hw⟩ := exec_next (decode (issuedWord op f bs))
  rw [hw] at hu
  cases hu
  exact ⟨bs, w, hbs, hz, hw, rfl⟩

/-- Settles O44: the evaluation gives the codec's word in every state, and the reserved code is a hazard. -/
theorem evaluationDrivesTheCodec : Obligations.EvaluationDrivesTheCodec := by
  intro s t op f lanes rest hag h
  obtain ⟨bs, w, hbs, hz, hw, rfl⟩ := step_ex_inv hag h
  refine ⟨bs, hbs, rfl, ?_, hw s, rfl⟩
  rintro rfl
  rw [hazardOf_evaluated_reserved] at hz
  cases hz

/-! ## Each byte of a transaction against the writes before it (log entry 24) -/

/-- A check of every write of a transaction is a check of its byte `k` against the writes before that byte. -/
theorem eachWrite_at {ok : Nat × Byte → List (Nat × Byte) → Bool} {a k : Nat} {bs : List Byte} {b : Byte}
    {past : List (Nat × Byte)} (h : eachWrite ok (byteWrites a bs) past = true) (hk : bs[k]? = some b) :
    ok (a + k, b) (writesBefore a bs k past) = true := by
  induction bs generalizing a k past with
  | nil => cases hk
  | cons x xs ih =>
    rw [byteWrites, eachWrite, Bool.and_eq_true] at h
    obtain ⟨hfirst, hlater⟩ := h
    cases k with
    | zero => cases hk; exact hfirst
    | succ k =>
      have hbyte := ih hlater hk
      rw [Nat.add_assoc, Nat.add_comm 1 k] at hbyte
      simpa [writesBefore, byteWrites] using hbyte

theorem mem_byteWrites_of_getElem? {a k : Nat} {bs : List Byte} {b : Byte} (hk : bs[k]? = some b) :
    (a + k, b) ∈ byteWrites a bs := by
  induction bs generalizing a k with
  | nil => cases hk
  | cons x xs ih =>
    cases k with
    | zero => cases hk; exact List.mem_cons_self
    | succ k =>
      have hlater := ih (a := a + 1) hk
      rw [Nat.add_assoc, Nat.add_comm 1 k] at hlater
      exact List.mem_cons_of_mem _ hlater

theorem inTimeBlock_iff (a : Nat) : inTimeBlock a = true ↔ 2 ≤ a ∧ a ≤ 8 := by
  simp [inTimeBlock]

theorem inAlarmBlock_iff (a : Nat) : inAlarmBlock a = true ↔ 9 ≤ a ∧ a ≤ 12 := by
  simp [inAlarmBlock]

theorem wroteTime_of_mem {w : Nat × Byte} {writes : List (Nat × Byte)} (hw : w ∈ writes) (h2 : 2 ≤ w.1)
    (h8 : w.1 ≤ 8) : wroteTime writes = true :=
  List.any_eq_true.mpr ⟨w, hw, (inTimeBlock_iff w.1).mpr ⟨h2, h8⟩⟩

theorem wroteTo_iff (a : Nat) (writes : List (Nat × Byte)) : wroteTo a writes = true ↔ ∃ v, (a, v) ∈ writes := by
  simp [wroteTo]

/-! ## What a write that goes on says of the trace -/

/-- A write that goes on ran into no hazard. -/
theorem hazardOf_wrote_of_step {s t : State} {a : Nat} {data : List Operand} {bs : List Byte}
    {rest : List ControllerAction} (hag : s.agenda = .wr a data :: rest) (hbs : operandBytes s.trace data = some bs)
    (h : step s = .next t) : hazardOf (.wrote a bs) s.trace = none := by
  rw [step_act hag] at h
  obtain ⟨-, bs', hbs', hw⟩ := withOperands_inv h
  obtain rfl : bs = bs' := Option.some.inj (hbs.symm.trans hbs')
  obtain ⟨-, -, hz, -⟩ := writeBytes_inv hw
  exact hz

section Wrote

variable {a : Nat} {bs : List Byte} {past : List BusEvent} (hz : hazardOf (.wrote a bs) past = none)
include hz

theorem inStopBracket_of_wrote : inStopBracket a bs (writesOf past) = true := by
  by_contra hout
  rw [hazardOf, writeHazard, if_pos (by simpa using hout)] at hz
  cases hz

theorem eachWrite_alarmInterruptOff_of_wrote {al : AlarmTime} {ie : Bool}
    (hop : currentOp past = some (.setAlarm al ie)) :
    eachWrite alarmInterruptOff (byteWrites a bs) (writesOf (sinceBegan past)) = true := by
  by_contra hout
  simp [hazardOf, writeHazard, inStopBracket_of_wrote hz, hop, hout] at hz

theorem eachWrite_timerInOrder_of_wrote {c : TimerConfig} (hop : currentOp past = some (.setTimer c)) :
    eachWrite timerInOrder (byteWrites a bs) (writesOf (sinceBegan past)) = true := by
  by_contra hout
  simp [hazardOf, writeHazard, inStopBracket_of_wrote hz, hop, hout] at hz

end Wrote

/-! ## What the end of an operation says of the trace -/

/-- An operation that ends ran into no hazard at its end. -/
theorem hazardOf_ended_of_step {s t : State} {rest : List ControllerAction} (hag : s.agenda = .finish :: rest)
    (h : step s = .next t) : hazardOf .ended s.trace = none := by
  rw [step_act hag] at h
  obtain ⟨-, -, -, hz, -, -⟩ := actFinish_inv h
  exact hz

theorem step_finish_fault {s : State} {op : HostOp} {f : Fault} {rest : List ControllerAction}
    (hag : s.agenda = .finish :: rest) (hop : currentOp s.trace = some op)
    (hz : hazardOf .ended s.trace = some f) : step s = .fault f :=
  (step_act hag).trans (actFinish_fault (s := { s with agenda := rest }) hop hz)

/-- The stop-bit bracket is looked at first (log entry 26). -/
theorem hazardOf_ended_of_not_released {past : List BusEvent}
    (h : stopReleased (writesOf (sinceBegan past)) = false) : hazardOf .ended past = some .stopBracketBroken := by
  simp [hazardOf, endHazard, h]

theorem hazardOf_ended_of_setAlarm {past : List BusEvent} {al : AlarmTime} {ie : Bool}
    (hop : currentOp past = some (.setAlarm al ie)) (h : stopReleased (writesOf (sinceBegan past)) = true) :
    hazardOf .ended past =
      if alarmRestored ie (writesOf (sinceBegan past)) then none else some .alarmOrderBroken := by
  simp [hazardOf, endHazard, h, hop]

/-! ## The stop-bit bracket (R242) -/

theorem stopSet_iff (past : List (Nat × Byte)) :
    stopSet past = true ↔ ∃ c1, lastWritten 0 past = some c1 ∧ c1.getLsbD 5 = true :=
  Option.any_eq_true ..

/-- Once the time block was written, STOP is released when it was last written 0. -/
theorem stopReleased_iff {writes : List (Nat × Byte)} (h : wroteTime writes = true) :
    stopReleased writes = true ↔ ∃ c1, lastWritten 0 writes = some c1 ∧ c1.getLsbD 5 = false := by
  rw [stopReleased, h, Bool.not_true, Bool.false_or, Option.any_eq_true]
  simp only [stopBit, Bool.not_eq_true']

/-- Settles O46: a byte in the time block brings the whole bracket with it, and the end looks for its release. -/
theorem timeBlockWriteNeedsTheStopBit : Obligations.TimeBlockWriteNeedsTheStopBit := by
  refine ⟨?_, ?_⟩
  · intro s t a data bs rest k hag hbs h hk h2 h8
    have hb : bs[k]? = some bs[k] := List.getElem?_eq_getElem hk
    have hbracket := inStopBracket_of_wrote (hazardOf_wrote_of_step hag hbs h)
    have hwrote : wroteTime (byteWrites a bs) = true := wroteTime_of_mem (mem_byteWrites_of_getElem? hb) h2 h8
    simp only [inStopBracket, timeBlockWhole, hwrote, Bool.not_true, Bool.false_or, Bool.and_eq_true,
      decide_eq_true_eq] at hbracket
    obtain ⟨⟨hset, hheld⟩, hfirst, hlast⟩ := hbracket
    have hbyte : stopHeld (a + k, bs[k]) (writesBefore a bs k (writesOf s.trace)) = true := eachWrite_at hheld hb
    rw [stopHeld, (inTimeBlock_iff _).mpr ⟨h2, h8⟩, Bool.not_true, Bool.false_or] at hbyte
    exact ⟨hfirst, hlast, (stopSet_iff _).mp hset, (stopSet_iff _).mp hbyte⟩
  · intro s op w rest hag hop hw h2 h8
    have hiff := stopReleased_iff (wroteTime_of_mem hw h2 h8)
    rw [← hiff]
    refine ⟨fun t h => ?_, fun hheld => ?_⟩
    · have hz := hazardOf_ended_of_step hag h
      by_contra hheld
      rw [hazardOf_ended_of_not_released (by simpa using hheld)] at hz
      cases hz
    · exact step_finish_fault hag hop (hazardOf_ended_of_not_released (by simpa using hheld))

/-! ## The alarm order (R243) -/

/-- The end check of `setAlarm` finds the write of control2 that ends the operation, newest first. -/
theorem alarmRestored_iff (ie : Bool) (writes : List (Nat × Byte)) :
    alarmRestored ie writes = true ↔ EndsWithAlarmRestored ie writes := by
  induction writes with
  | nil => simp [alarmRestored, lastWritten, EndsWithAlarmRestored]
  | cons w past ih =>
    obtain ⟨a, v⟩ := w
    by_cases ha : a = 1
    · subst ha
      have hleft : alarmRestored ie ((1, v) :: past) = true ↔ v.getLsbD 1 = ie := by
        simp [alarmRestored, alarmPending, lastWritten, aieBit]
      rw [hleft]
      refine ⟨fun hv => ⟨[], v, past, rfl, hv, by simp⟩, ?_⟩
      rintro ⟨_ | ⟨x, newer⟩, c2, older, heq, hc2, hnewer⟩
      · cases heq; exact hc2
      · cases heq; exact absurd rfl (hnewer (1, v) List.mem_cons_self).1
    · have hleft : alarmRestored ie ((a, v) :: past) = true ↔ ¬ (9 ≤ a ∧ a ≤ 12) ∧ alarmRestored ie past = true := by
        rw [← inAlarmBlock_iff]
        simp [alarmRestored, alarmPending, lastWritten, List.lookup_cons, ha, beq_false_of_ne (Ne.symm ha), and_assoc]
      rw [hleft, ih]
      constructor
      · rintro ⟨hblock, newer, c2, older, rfl, hc2, hnewer⟩
        exact ⟨(a, v) :: newer, c2, older, rfl, hc2, List.forall_mem_cons.mpr ⟨⟨ha, hblock⟩, hnewer⟩⟩
      · rintro ⟨_ | ⟨x, newer⟩, c2, older, heq, hc2, hnewer⟩
        · cases heq; exact absurd rfl ha
        · cases heq
          obtain ⟨⟨-, hblock⟩, hlater⟩ := List.forall_mem_cons.mp hnewer
          exact ⟨hblock, newer, c2, older, rfl, hc2, hlater⟩

/-- Settles O47, by the check of each byte of a transaction and by the check at the end of the operation. -/
theorem alarmWriteNeedsTheInterruptOff : Obligations.AlarmWriteNeedsTheInterruptOff := by
  refine ⟨?_, ?_⟩
  · intro s t al ie a data bs rest k hop hag hbs h hk h9 h12
    have hbyte := eachWrite_at (eachWrite_alarmInterruptOff_of_wrote (hazardOf_wrote_of_step hag hbs h) hop)
      (List.getElem?_eq_getElem hk)
    rw [alarmInterruptOff, (inAlarmBlock_iff _).mpr ⟨h9, h12⟩, Bool.not_true, Bool.false_or, Option.any_eq_true]
      at hbyte
    simpa only [aieBit, Bool.not_eq_true'] using hbyte
  · intro s al ie rest hag hop
    rw [← alarmRestored_iff]
    cases hreleased : stopReleased (writesOf (sinceBegan s.trace)) with
    | false =>
      have hfault := step_finish_fault hag hop (hazardOf_ended_of_not_released hreleased)
      exact ⟨fun t h => absurd (hfault.symm.trans h) nofun, fun _ => .inr hfault⟩
    | true =>
      have hend := hazardOf_ended_of_setAlarm hop hreleased
      refine ⟨fun t h => ?_, fun hbroken => .inl (step_finish_fault hag hop (by rw [hend, if_neg hbroken]))⟩
      by_contra hbroken
      rw [hazardOf_ended_of_step hag h, if_neg hbroken] at hend
      cases hend

/-! ## The timer order (R244) -/

theorem enablesTimer_iff (w : Nat × Byte) : enablesTimer w = true ↔ w.1 = 0x0E ∧ w.2.getLsbD 7 = true := by
  simp [enablesTimer, timerEnableBit]

/-- The first write of `setTimer` disables the timer. -/
theorem timerInOrder_nil (w : Nat × Byte) : timerInOrder w [] = true ↔ w.1 = 0x0E ∧ w.2 = 0x00#8 := by
  simp [timerInOrder]

/-- A later write of `setTimer` follows no enabling write, and enables the timer after control2 and the counter. -/
theorem timerInOrder_iff {past : List (Nat × Byte)} (w : Nat × Byte) (h : past ≠ []) :
    timerInOrder w past = true ↔ (∀ v, (0x0E, v) ∈ past → v.getLsbD 7 = false) ∧
      (w.1 = 0x0E → w.2.getLsbD 7 = true → (∃ v, (0x01, v) ∈ past) ∧ ∃ v, (0x0F, v) ∈ past) := by
  have hnone : past.any enablesTimer = false ↔ ∀ v, (0x0E, v) ∈ past → v.getLsbD 7 = false := by
    rw [List.any_eq_false]
    constructor
    · intro hnot v hv
      simpa [enablesTimer_iff] using hnot (0x0E, v) hv
    · rintro hoff ⟨a, v⟩ hv henables
      obtain ⟨rfl, hte⟩ : a = 0x0E ∧ v.getLsbD 7 = true := (enablesTimer_iff _).mp henables
      exact absurd hte (by simp only [hoff v hv, Bool.false_eq_true, not_false_eq_true])
  rw [timerInOrder, List.isEmpty_eq_false_iff.mpr h, if_neg (by decide), Bool.and_eq_true, Bool.not_eq_true', hnone,
    Bool.or_eq_true, Bool.not_eq_true', Bool.and_eq_true, wroteTo_iff, wroteTo_iff, ← and_imp, ← enablesTimer_iff]
  cases enablesTimer w <;> simp

/-- Settles O48, by the check of each byte against the writes before it. -/
theorem timerWritesKeepTheirOrder : Obligations.TimerWritesKeepTheirOrder := by
  rintro s t cfg a data bs rest k b before hop hag hbs h hk rfl
  have hbyte := eachWrite_at (eachWrite_timerInOrder_of_wrote (hazardOf_wrote_of_step hag hbs h) hop) hk
  generalize writesBefore a bs k (writesOf (sinceBegan s.trace)) = before at hbyte ⊢
  by_cases hfirst : before = []
  · subst hfirst
    obtain ⟨haddr, hzero⟩ := (timerInOrder_nil _).mp hbyte
    refine ⟨fun _ => ⟨haddr, hzero⟩, by simp, fun _ hte => ?_⟩
    rw [show b = 0x00#8 from hzero] at hte
    cases hte
  · obtain ⟨hdisabled, henables⟩ := (timerInOrder_iff _ hfirst).mp hbyte
    exact ⟨fun hnil => absurd hnil hfirst, hdisabled, henables⟩

/-! ## Fresh control bytes (R245) -/

theorem wasRead_iff (a : Nat) (b : Byte) (past : List BusEvent) : wasRead a b past = true ↔
    ∃ base bytes, .didRead base bytes ∈ past ∧ base ≤ a ∧ bytes[a - base]? = some b := by
  induction past with
  | nil => simp [wasRead]
  | cons e past ih =>
    cases e with
    | didRead base bytes =>
      simp only [wasRead, Bool.or_eq_true, Bool.and_eq_true, decide_eq_true_eq, beq_iff_eq, ih, List.mem_cons,
        BusEvent.didRead.injEq]
      constructor
      · rintro (hthis | ⟨base', bytes', hmem, hread⟩)
        · exact ⟨base, bytes, .inl ⟨rfl, rfl⟩, hthis⟩
        · exact ⟨base', bytes', .inr hmem, hread⟩
      · rintro ⟨base', bytes', ⟨rfl, rfl⟩ | hmem, hread⟩
        · exact .inl hread
        · exact .inr ⟨base', bytes', hmem, hread⟩
    | _ => simp [wasRead, ih]

theorem inSetAlarm_iff (past : List BusEvent) :
    inSetAlarm past = true ↔ ∃ al ie, currentOp past = some (.setAlarm al ie) := by
  unfold inSetAlarm
  split
  · next al ie hop => simp [hop]
  · next hop => simpa using hop

/-- The trace holds no C2_AIE_WR when there is no first one. -/
theorem not_aie_of_firstAieByte_none {past : List BusEvent} (h : firstAieByte past = none) :
    ∀ cw rw, .evaluated cw rw ∈ past → opField cw ≠ 0x7#4 := by
  induction past with
  | nil => simp
  | cons e past ih =>
    cases e with
    | evaluated cw rw =>
      rw [firstAieByte] at h
      cases hpast : firstAieByte past with
      | some b => simp [hpast] at h
      | none =>
        have hcw : opField cw ≠ 0x7#4 := by simpa [hpast] using h
        intro cw' rw' hmem
        rcases List.mem_cons.mp hmem with heq | hlater
        · cases heq; exact hcw
        · exact ih hpast cw' rw' hlater
    | _ => simpa using ih h

/-- The byte of the first C2_AIE_WR is lane 0 of an evaluation with no C2_AIE_WR before it. -/
theorem exists_first_of_firstAieByte {past : List BusEvent} {b : Byte} (h : firstAieByte past = some b) :
    ∃ newer cw rw older, past = newer ++ .evaluated cw rw :: older ∧ opField cw = 0x7#4 ∧
      (∀ cw' rw', .evaluated cw' rw' ∈ older → opField cw' ≠ 0x7#4) ∧ resultLane rw 0 = b := by
  induction past with
  | nil => cases h
  | cons e past ih =>
    have hlater : firstAieByte past = some b → ∃ newer cw rw older, e :: past = newer ++ .evaluated cw rw :: older ∧
        opField cw = 0x7#4 ∧ (∀ cw' rw', .evaluated cw' rw' ∈ older → opField cw' ≠ 0x7#4) ∧ resultLane rw 0 = b := by
      intro hpast
      obtain ⟨newer, cw, rw, older, rfl, hfirst⟩ := ih hpast
      exact ⟨e :: newer, cw, rw, older, rfl, hfirst⟩
    cases e with
    | evaluated cw rw =>
      rw [firstAieByte] at h
      cases hpast : firstAieByte past with
      | some b' =>
        rw [hpast] at h
        exact hlater (hpast.trans h)
      | none =>
        obtain ⟨hcw, hlane⟩ : opField cw = 0x7#4 ∧ resultLane rw 0 = b := by simpa [hpast] using h
        exact ⟨[], cw, rw, past, rfl, hcw, not_aie_of_firstAieByte_none hpast, hlane⟩
    | _ => exact hlater h

/-- When no C2_AIE_WR took an unread byte, each took a byte read before it. -/
theorem wasRead_of_not_aieTookUnread {newer older : List BusEvent} {cw rw : Word}
    (h : aieTookUnread (newer ++ .evaluated cw rw :: older) = false) (hcw : opField cw = 0x7#4) :
    wasRead 1 (operandLane cw 0) older = true := by
  induction newer with
  | nil =>
    rw [List.nil_append, aieTookUnread, Bool.or_eq_false_iff] at h
    simpa [hcw] using h.1
  | cons e newer ih =>
    cases e with
    | evaluated _ _ =>
      rw [List.cons_append, aieTookUnread, Bool.or_eq_false_iff] at h
      exact ih h.2
    | _ => exact ih h

theorem controlByteFresh_of_evaluated {cw : Word} {past : List BusEvent}
    (h : hazardOf (.evaluated cw 0) past = none) : controlByteFresh cw past = true := by
  by_contra hstale
  rw [hazardOf, if_neg hstale] at h
  split at h <;> cases h

/-- The control byte of a command was read for the operation in progress, or it is the byte of the first C2_AIE_WR;
and no C2_AIE_WR follows one that took an unread byte. -/
theorem controlByteFresh_iff {cw : Word} {a : Nat} (hc : controlAddress (opField cw) = some a)
    (past : List BusEvent) : controlByteFresh cw past = true ↔
      (currentOp past).isSome = true ∧
        (wasRead a (operandLane cw 0) (sinceBegan past) = true ∨ finalAieTakesFirst cw past = true) ∧
        (opField cw = 0x7#4 → aieTookUnread (sinceBegan past) = false) := by
  rw [controlByteFresh, hc]
  simp [and_assoc, imp_iff_not_or]

/-- Settles O49: the trace behind an EX that goes on holds the read, or the first C2_AIE_WR, that its byte is from. -/
theorem controlBytesAreFresh : Obligations.ControlBytesAreFresh := by
  intro s t op f lanes rest addr hag hc h
  obtain ⟨bs, w, -, hz, -, rfl⟩ := step_ex_inv hag h
  rw [← opField_issuedWord op f bs] at hc
  obtain ⟨hcur, hfrom, hlast⟩ := (controlByteFresh_iff hc _).mp (controlByteFresh_of_evaluated hz)
  rw [opField_issuedWord] at hlast
  refine ⟨Option.isSome_iff_exists.mp hcur, ?_, ?_⟩
  · rcases hfrom with hread | hfinal
    · exact .inl ((wasRead_iff _ _ _).mp hread)
    · rw [finalAieTakesFirst, opField_issuedWord, Bool.and_eq_true, Bool.and_eq_true, beq_iff_eq, beq_iff_eq] at hfinal
      obtain ⟨⟨hop, halarm⟩, hfirst⟩ := hfinal
      exact .inr ⟨hop, (inSetAlarm_iff _).mp halarm, exists_first_of_firstAieByte hfirst⟩
  · intro hop newer cw rw older htrace hcw
    have hunread := hlast hop
    rw [htrace] at hunread
    exact (wasRead_iff _ _ _).mp (wasRead_of_not_aieTookUnread hunread hcw)

/-! ## Lanes of an errored result (R247) -/

/-- An action with an errored lane among its operands stops for the lane, whatever it would do with the bytes. -/
theorem withOperands_errored {os : List Operand} {s : State} (k : List Byte → Host.Outcome State Fault Refusal)
    (h : os.any (operandErrored s.trace) = true) : withOperands os s k = .fault .erroredResultUsed :=
  if_pos h

/-- Settles O50: the lane makes the operands of the action errored, and both actions look at them first. -/
theorem erroredResultIsNotUsed : Obligations.ErroredResultIsNotUsed := by
  intro s rw back i a op f before after rest hrw hstatus hag
  have herrored : (before ++ .result back i :: after).any (operandErrored s.trace) = true := by
    have hlane : operandErrored s.trace (.result back i) = true := by
      simpa [operandErrored, hrw, statusOk] using hstatus
    rw [List.any_append, List.any_cons, hlane, Bool.true_or, Bool.or_true]
  rcases hag with hwr | hex
  · exact (step_act hwr).trans (withOperands_errored (s := { s with agenda := rest }) _ herrored)
  · exact (step_act hex).trans (withOperands_errored (s := { s with agenda := rest }) _ herrored)

/-! ## Starts and the bus (R248, R249) -/

/-- Settles O51: the start of an operation looks at the one in progress alone. -/
theorem operationsDoNotInterleave : Obligations.OperationsDoNotInterleave := by
  intro s op op' rest hag
  rw [step_act hag]
  refine ⟨fun hop => ?_, fun hop => ?_⟩
  · simp [act, actStart, record, hazardOf, hop]
  · exact record_next (s := { s with agenda := rest }) (by simp [hazardOf, hop])

/-- A run that begins with a fault is that fault, however long. -/
theorem run_fault {s : State} {f : Fault} (h : step s = .fault f) (k : Nat) :
    Host.Core.run core (k + 1) s = .fault f := by
  simp only [Host.Core.run]
  rw [show core.step s = .fault f from h]

theorem actRead_silent {s : State} (a n : Nat) (h : s.bus = .silent) : actRead a n s = .fault .unansweredRead := by
  rw [actRead, h]

theorem actRead_failing {s : State} (a n : Nat) (h : s.bus = .failing) :
    actRead a n s = .fault .busTransportError := by
  rw [actRead, h]

/-- A write goes nowhere on a bus that does not answer (log entry 8). -/
theorem writeBytes_of_not_answering {s : State} (a : Nat) (bs : List Byte) (h : s.bus ≠ .answering) :
    writeBytes a bs s = .fault .busTransportError := by
  unfold writeBytes
  split
  · rfl
  · rfl
  · next hb => exact absurd hb h

/-- Settles O52: the first step is the fault, by the condition of the bus. -/
theorem unansweredReadIsStuck : Obligations.UnansweredReadIsStuck := by
  refine ⟨fun s a n rest hag => ⟨fun hb => ?_, fun hb => ?_⟩, fun s a data bs rest hag he ho hb => ?_⟩
  · exact run_fault ((step_act hag).trans (actRead_silent (s := { s with agenda := rest }) a n hb))
  · exact run_fault ((step_act hag).trans (actRead_failing (s := { s with agenda := rest }) a n hb))
  · refine run_fault ((step_act hag).trans ?_)
    simp only [act, actWrite, withOperands, he, ho, Bool.false_eq_true, if_false]
    exact writeBytes_of_not_answering (s := { s with agenda := rest }) a bs hb

end Sys2Proof.Proofs
end

section
/-! PROOFS. The runs that several host operations share: an evaluation whose byte is written, control2 read and written
back; with them the flag accessors (spec/70_reset_and_hazards.md R237, R239) and `getDateTime` of a seconds register
with VL set (R235, R247). -/

namespace Sys2Proof.Proofs

open Sys2Proof Sys2Proof.Machine Sys2Proof.Safety Sys2Proof.Laws

/-! ## The hazards of a single write, and of the end of an operation -/

/-- No rule of its own orders the writes of the operation: R243 binds `setAlarm` and R244 binds `setTimer`. -/
def Unordered (op : HostOp) : Prop := (∀ al ie, op ≠ .setAlarm al ie) ∧ ∀ c, op ≠ .setTimer c

section Hazards

variable {a : Nat} {b : Byte} {past : List BusEvent} {op : HostOp}

theorem hazardOf_wrote_of_unordered (ha : inTimeBlock a = false) (hop : currentOp past = some op)
    (hu : Unordered op) : hazardOf (.wrote a [b]) past = none := by
  rw [hazardOf, writeHazard, inStopBracket_of_not_timeBlock ha, hop]
  obtain ⟨halarm, htimer⟩ := hu
  cases op with
  | setAlarm al ie => exact absurd rfl (halarm al ie)
  | setTimer c => exact absurd rfl (htimer c)
  | _ => rfl

/-- Outside `setAlarm` the end of an operation looks at the stop bit alone (R242). -/
theorem hazardOf_ended_of_released (hop : currentOp past = some op) (halarm : ∀ al ie, op ≠ .setAlarm al ie)
    (h : stopReleased (writesOf (sinceBegan past)) = true) : hazardOf .ended past = none := by
  rw [hazardOf, endHazard, h, hop]
  cases op with
  | setAlarm al ie => exact absurd rfl (halarm al ie)
  | _ => rfl

end Hazards

/-! ## Control2 and the one-byte operations -/

theorem readBytes_control2 (s : State) (draw : Nat) : readBytes s 1 draw 1 = [registerByte s 1] :=
  congrArg (fun b => [b]) (readByte_control s.peer 1 _ _ (by decide))

/-- A peer holds a valid byte as written in every register but control2 and seconds. -/
theorem landedByte_valid {a : Nat} {b : Byte} (p : Peer) (draw : Byte) (hb : validRegisterByte a b = true)
    (h1 : a ≠ 1) (h2 : a ≠ 2) : landedByte p a b draw = b := by
  cases p with
  | simulatedStore => rfl
  | realChip => exact realChipByte_other draw hb h1 h2

section Shared

variable {p : Peer} {s : State} {rest : List ControllerAction} {past : List BusEvent}

/-- An operation that gives one byte is evaluated and its byte is written to register `a`; no other register is
touched. -/
theorem OnBus.exWr {op f : Nibble} {os : List Operand} {bs : List Byte} {a : Nat} {v : Byte}
    (h : OnBus p s (.ex op f os :: .wr a [.result 0 0] :: rest) past) (hwf : Memory.wf s.registers = true)
    (he : os.any (operandErrored past) = false) (ho : operandBytes past os = some bs)
    (hz : hazardOf (.evaluated (issuedWord op f bs) 0) past = none)
    (hx : ∀ u, exec (decode (issuedWord op f bs)) u = complete false { r0 := v } u) (ha : a < 16)
    (hw : ∀ rw, hazardOf (.wrote a [v]) (.evaluated (issuedWord op f bs) rw :: past) = none) :
    ∃ t, runsTo 2 s t ∧
      OnBus p t rest
        (.wrote a [v] :: .evaluated (issuedWord op f bs) (packResult statusOk false { r0 := v }) :: past) ∧
      Memory.wf t.registers = true ∧ (∃ draw, registerByte t a = landedByte p a v draw) ∧
      ∀ a', a' ≠ a → registerByte t a' = registerByte s a' := by
  obtain ⟨t₁, hs₁, h₁, hr₁⟩ := h.ex he ho hz hx
  have hlane := resultLane0_packResult statusOk false { r0 := v }
  obtain ⟨t₂, hs₂, h₂, hwf₂, hland, hframe⟩ := h₁.wr (bs := [v]) (hr₁ ▸ hwf)
    (any_operandErrored_latest (resultStatus_packResult ..) [0])
    (by rw [operandBytes, operandByte_latest (by decide), hlane, operandBytes]) ha (hw _)
  exact ⟨t₂, runsTo_succ hs₁ (runsTo_succ hs₂ (runsTo_zero _)), h₂, hwf₂, hland 0 v rfl, fun a' ha' =>
    (hframe a' (Nat.lt_or_gt_of_ne ha')).trans (registerByte_congr hr₁ a')⟩

/-- Control2 is read, an operation makes another byte of it, and the byte is written back. -/
theorem OnBus.rewriteControl2 {op f : Nibble} {v : Byte}
    (h : OnBus p s (.rd 1 1 :: .ex op f [.read 0] :: .wr 1 [.result 0 0] :: rest) past)
    (hwf : Memory.wf s.registers = true)
    (hz : hazardOf (.evaluated (issuedWord op f [registerByte s 1]) 0) (.didRead 1 [registerByte s 1] :: past) = none)
    (hx : ∀ u, exec (decode (issuedWord op f [registerByte s 1])) u = complete false { r0 := v } u)
    (hw : ∀ cw rw, hazardOf (.wrote 1 [v]) (.evaluated cw rw :: .didRead 1 [registerByte s 1] :: past) = none) :
    ∃ t, runsTo 3 s t ∧
      OnBus p t rest
        (.wrote 1 [v] :: .evaluated (issuedWord op f [registerByte s 1]) (packResult statusOk false { r0 := v }) ::
          .didRead 1 [registerByte s 1] :: past) ∧
      Memory.wf t.registers = true ∧ (∃ draw, registerByte t 1 = landedByte p 1 v draw) ∧
      ∀ a', a' ≠ 1 → registerByte t a' = registerByte s a' := by
  obtain ⟨t₁, hs₁, h₁, hr₁⟩ := h.rd (by decide)
  rw [readBytes_control2] at h₁
  obtain ⟨t₂, hs₂, h₂, hwf₂, hland, hframe⟩ := h₁.exWr (hr₁ ▸ hwf) rfl rfl hz hx (by decide) (hw _)
  exact ⟨t₂, runsTo_succ hs₁ hs₂, h₂, hwf₂, hland, fun a' ha' => (hframe a' ha').trans (registerByte_congr hr₁ a')⟩

end Shared

/-! ## The flag accessors (R237, R239) -/

section Accessors

variable {p : Peer} {s : State} {rest : List ControllerAction} {past : List BusEvent} {g : HostOp} {op : Nibble}
  (hidle : currentOp past = none) (hop : op ≠ 0x0#4) (haie : op ≠ 0x7#4) (hc : controlAddress op = some 1)
  (hg : Unordered g)
include hidle hop haie hc hg

/-- A getter reads control2, returns the flag its operation reads there, and changes no register. -/
theorem OnBus.getFlag {r : Bool}
    (h : OnBus p s (.start g :: .rd 1 1 :: .ex op 0#4 [.read 0] :: .finish :: rest) past)
    (hx : ∀ u, exec (decode (issuedWord op 0#4 [registerByte s 1])) u = complete r {} u)
    (hret : ∀ own, hostReturn g own = (latestResult op own).map fun rw => .flag (resultFlag rw)) :
    ∃ t, runsTo 4 s t ∧ t.agenda = rest ∧ t.registers = s.registers ∧ t.returned = some (.flag r) := by
  obtain ⟨t₁, hs₁, h₁, hr₁⟩ := h.start hidle
  obtain ⟨t₂, hs₂, h₂, hr₂⟩ := h₁.rd (by decide)
  rw [readBytes_control2, registerByte_congr hr₁] at h₂
  obtain ⟨t₃, hs₃, h₃, hr₃⟩ := h₂.ex rfl rfl (hazardOf_evaluated_of_just_read _ _ hop haie hc rfl) hx
  have hlatest : ∀ w past',
      latestResult op (sinceBegan (.evaluated (issuedWord op 0#4 [registerByte s 1]) w :: past')) = some w :=
    fun _ _ => if_pos (beq_of_eq (opField_issuedWord ..))
  obtain ⟨t₄, hs₄, h₄, hr₄, hret₄⟩ := h₃.finish (r := .flag r) rfl (hazardOf_ended_of_released rfl hg.1 rfl)
    (by rw [hret, hlatest, Option.map_some, resultFlag_packResult])
  exact ⟨t₄, runsTo_succ hs₁ (runsTo_succ hs₂ (runsTo_succ hs₃ (runsTo_succ hs₄ (runsTo_zero _)))), h₄.agenda,
    hr₄.trans (hr₃.trans (hr₂.trans hr₁)), hret₄⟩

/-- A clearer writes the byte of its operation back to control2 and touches no other register. -/
theorem OnBus.clearFlag {v : Byte}
    (h : OnBus p s (.start g :: .rd 1 1 :: .ex op 0#4 [.read 0] :: .wr 1 [.result 0 0] :: .finish :: rest) past)
    (hwf : Memory.wf s.registers = true)
    (hx : ∀ u, exec (decode (issuedWord op 0#4 [registerByte s 1])) u = complete false { r0 := v } u)
    (hret : ∀ own, hostReturn g own = some .done) :
    ∃ t, runsTo 5 s t ∧ t.agenda = rest ∧ (∃ draw, registerByte t 1 = landedByte p 1 v draw) ∧
      ∀ a, a ≠ 1 → registerByte t a = registerByte s a := by
  obtain ⟨t₁, hs₁, h₁, hr₁⟩ := h.start hidle
  rw [← registerByte_congr hr₁ 1] at hx
  obtain ⟨t₂, hs₂, h₂, -, ⟨draw, hland⟩, hframe⟩ := h₁.rewriteControl2 (hr₁ ▸ hwf)
    (hazardOf_evaluated_of_just_read _ _ hop haie hc rfl) hx
    (fun _ _ => hazardOf_wrote_of_unordered rfl rfl hg)
  obtain ⟨t₃, hs₃, h₃, hr₃, -⟩ := h₂.finish rfl (hazardOf_ended_of_released rfl hg.1 rfl) (hret _)
  refine ⟨t₃, runsTo_succ hs₁ (runsTo_add hs₂ (runsTo_succ hs₃ (runsTo_zero _))), h₃.agenda,
    ⟨draw, (registerByte_congr hr₃ 1).trans hland⟩, fun a ha => ?_⟩
  rw [registerByte_congr hr₃, hframe a ha, registerByte_congr hr₁]

end Accessors

/-- Settles O58: each accessor is the one run, with its own operation on control2. -/
theorem flagAccessorsTouchOneBit : Obligations.FlagAccessorsTouchOneBit := by
  intro s rest hb hidle
  refine ⟨fun hag => ?_, fun hag => ?_, fun hp hwf hag => ?_, fun hp hwf hag => ?_⟩
  · have h : OnBus s.peer s _ s.trace := ⟨rfl, hb, hag, rfl⟩
    exact h.getFlag hidle (by decide) (by decide) rfl ⟨by simp, by simp⟩
      (fun u => by rw [decode_issuedWord]; exact exec_c2AfGet _ u) (fun _ => rfl)
  · have h : OnBus s.peer s _ s.trace := ⟨rfl, hb, hag, rfl⟩
    exact h.getFlag hidle (by decide) (by decide) rfl ⟨by simp, by simp⟩
      (fun u => by rw [decode_issuedWord]; exact exec_c2TfGet _ u) (fun _ => rfl)
  · have h : OnBus .simulatedStore s _ s.trace := ⟨hp, hb, hag, rfl⟩
    obtain ⟨t, hrun, ht, ⟨draw, hland⟩, hframe⟩ := h.clearFlag hidle (by decide) (by decide) rfl ⟨by simp, by simp⟩
      hwf (fun u => by rw [decode_issuedWord]; exact exec_c2AfClr _ u) (fun _ => rfl)
    exact ⟨t, hrun, ht, hland, hframe⟩
  · have h : OnBus .simulatedStore s _ s.trace := ⟨hp, hb, hag, rfl⟩
    obtain ⟨t, hrun, ht, ⟨draw, hland⟩, hframe⟩ := h.clearFlag hidle (by decide) (by decide) rfl ⟨by simp, by simp⟩
      hwf (fun u => by rw [decode_issuedWord]; exact exec_c2TfClr _ u) (fun _ => rfl)
    exact ⟨t, hrun, ht, hland, hframe⟩

/-! ## getDateTime of a clock that lost its supply (R235, R247) -/

/-- VL is no free bit: a read of the time block gives it as it is held. -/
theorem exists_readBytes_timeBlock (s : State) (draw : Nat) : ∃ b0 b1 b2 b3 b4 b5 b6,
    readBytes s 2 draw 7 = [b0, b1, b2, b3, b4, b5, b6] ∧ b0.getLsbD 7 = (registerByte s 2).getLsbD 7 :=
  ⟨_, _, _, _, _, _, _, rfl, getLsbD_readByte _ _ _ (by decide) rfl⟩

/-- TIME_UNPACK of the bytes read of a seconds register with VL set raises CLOCK_INTEGRITY (R201). -/
theorem exec_issued_timeUnpack_of_voltageLow {s : State} (hvl : (registerByte s 2).getLsbD 7 = true) (draw : Nat)
    (u : State) : exec (decode (issuedWord 0x4#4 0#4 (readBytes s 2 draw 7))) u = raiseException .clockIntegrity u := by
  obtain ⟨b0, b1, b2, b3, b4, b5, b6, hbytes, hb0⟩ := exists_readBytes_timeBlock s draw
  rw [hbytes, decode_issuedWord]
  exact exec_timeUnpack_of_voltageLow b1 b2 b3 b4 b5 b6 u (hb0.trans hvl)

theorem mem_resultsOf {cw rw : Word} {past : List BusEvent} (h : .evaluated cw rw ∈ past) : rw ∈ resultsOf past := by
  induction past with
  | nil => cases h
  | cons e past ih =>
    rcases List.mem_cons.mp h with rfl | hlater
    · exact List.mem_cons_self
    · cases e with
      | evaluated _ _ => exact List.mem_cons_of_mem _ (ih hlater)
      | _ => exact ih hlater

/-- Settles O54: TIME_UNPACK raises on the bytes read, and one that raised decides what the operation returns. -/
theorem getDateTimeReportsVoltageLow : Obligations.GetDateTimeReportsVoltageLow := by
  refine ⟨?_, ?_⟩
  · intro s rest hb hop hvl hag
    have h : OnBus s.peer s _ s.trace := ⟨rfl, hb, hag, rfl⟩
    obtain ⟨t, _, draw, w, hrun, ht, -, hregs, hw, hret⟩ := h.getDateTime hop
    have hstatus : resultStatus w = 1#2 := by
      have hnext := (hw s).symm.trans (exec_issued_timeUnpack_of_voltageLow hvl draw s)
      injection hnext with hstate
      rw [show w = packResult (exceptionStatus .clockIntegrity) false {} from congrArg State.result hstate,
        resultStatus_packResult, exceptionStatus]
    exact ⟨t, hrun, ht.agenda, hregs, by rw [hret, if_pos hstatus]⟩
  · intro s t cw rw rest hag hop hmem hstatus h
    rw [step_act hag] at h
    obtain ⟨op', r, hop', -, hret, rfl⟩ := actFinish_inv h
    obtain rfl : HostOp.getDateTime = op' := Option.some.inj (hop.symm.trans hop')
    have hraised : unpackRaised (sinceBegan s.trace) = true :=
      List.any_eq_true.mpr ⟨rw, mem_resultsOf hmem, beq_of_eq hstatus⟩
    rw [hostReturn, if_pos hraised] at hret
    exact hret.symm

end Sys2Proof.Proofs
end

section
/-! PROOFS. The host operation `setAlarm` as a run (spec/70_reset_and_hazards.md R236, R243). -/

namespace Sys2Proof.Proofs

open Sys2Proof Sys2Proof.Machine Sys2Proof.Safety Sys2Proof.Laws

/-- The four bytes ALARM_PACK gives for an alarm time, the minute first (R151, R152). -/
def alarmBytes (al : AlarmTime) : List Byte :=
  [alarmField (al.mask.getLsbD 0) al.minutes, alarmField (al.mask.getLsbD 1) al.hours,
    alarmField (al.mask.getLsbD 2) al.day, alarmField (al.mask.getLsbD 3) al.weekday]

theorem decode_exAie (c2 : Byte) (ie : Bool) :
    decode (issuedWord 0x7#4 (flagsOf false false false ie) [c2]) = .c2AieWr c2 ie := by
  rw [decode_issuedWord]
  cases ie <;> rfl

theorem aieBit_aieWritten (c2 : Byte) (ie : Bool) : aieBit (aieWritten c2 ie) = ie :=
  getLsbD_aieWritten c2 ie (k := 1) (by decide)

theorem lastWritten_cons_self (a : Nat) (b : Byte) (writes : List (Nat × Byte)) :
    lastWritten a ((a, b) :: writes) = some b := List.lookup_cons_self

theorem lastWritten_cons_of_ne {a a' : Nat} (h : a ≠ a') (b : Byte) (writes : List (Nat × Byte)) :
    lastWritten a ((a', b) :: writes) = lastWritten a writes := by
  rw [lastWritten, lastWritten, List.lookup_cons, beq_false_of_ne h]

/-! ## The hazards of the run -/

section Hazards

variable {past : List BusEvent} {al : AlarmTime} {ie : Bool}

/-- `setAlarm` may write control2 at any time: the byte is none of the alarm block. -/
theorem hazardOf_wrote_control2_in_setAlarm (hop : currentOp past = some (.setAlarm al ie)) (b : Byte) :
    hazardOf (.wrote 1 [b]) past = none := by
  have hbracket := inStopBracket_of_not_timeBlock (a := 1) rfl b (writesOf past)
  have horder : ∀ writes, eachWrite alarmInterruptOff (byteWrites 1 [b]) writes = true := fun _ => rfl
  simp [hazardOf, writeHazard, hbracket, hop, horder]

/-- The first C2_AIE_WR takes the byte just read. -/
theorem hazardOf_first_aie (f : Nibble) (c2 : Byte) :
    hazardOf (.evaluated (issuedWord 0x7#4 f [c2]) 0) (.didRead 1 [c2] :: .began (.setAlarm al ie) :: past) = none := by
  simp [hazardOf, controlByteFresh, controlAddress, opField_issuedWord, operandLane0_issuedWord, currentOp, sinceBegan,
    wasRead, aieTookUnread]

/-- The alarm block may go right after control2 was written with AIE = 0. -/
theorem hazardOf_wrote_alarmBlock (hop : currentOp past = some (.setAlarm al ie)) {c2 : Byte}
    (hoff : aieBit c2 = false) (cw rw : Word) :
    hazardOf (.wrote 9 (alarmBytes al)) (.evaluated cw rw :: .wrote 1 [c2] :: past) = none := by
  have hcur : currentOp (.evaluated cw rw :: .wrote 1 [c2] :: past) = some (.setAlarm al ie) := hop
  have hbracket : ∀ writes, inStopBracket 9 (alarmBytes al) writes = true := fun _ => rfl
  have horder : eachWrite alarmInterruptOff (byteWrites 9 (alarmBytes al))
      (writesOf (sinceBegan (.evaluated cw rw :: .wrote 1 [c2] :: past))) = true := by
    simp [alarmBytes, byteWrites, eachWrite, alarmInterruptOff, lastWritten_cons_of_ne, lastWritten_cons_self,
      sinceBegan, writesOf, hoff]
  simp only [hazardOf, writeHazard, hbracket, hcur, horder, Bool.not_true, Bool.false_eq_true, if_false, if_true]

/-- The final C2_AIE_WR takes the byte the first one gave, which took a byte that was read. -/
theorem hazardOf_final_aie (f : Nibble) {bs : List Byte} {cw rw cw' rw' : Word} {c2 b v : Byte}
    (hcw : opField cw = 0x7#4) (hread : operandLane cw 0 = c2) (hgave : resultLane rw 0 = b)
    (hcw' : opField cw' ≠ 0x7#4) :
    hazardOf (.evaluated (issuedWord 0x7#4 f [b]) 0)
      (.wrote 9 bs :: .evaluated cw' rw' :: .wrote 1 [v] :: .evaluated cw rw :: .didRead 1 [c2] ::
        .began (.setAlarm al ie) :: past) = none := by
  simp [hazardOf, controlByteFresh, controlAddress, opField_issuedWord, operandLane0_issuedWord, currentOp, sinceBegan,
    wasRead, aieTookUnread, finalAieTakesFirst, inSetAlarm, firstAieByte, hcw, hcw', hread, hgave]

/-- `setAlarm` may end right after control2 was written with AIE as requested. -/
theorem hazardOf_ended_of_alarm_restored {c2 b v : Byte} (hie : aieBit b = ie) (cw rw cw' rw' cw'' rw'' : Word) :
    hazardOf .ended
      (.wrote 1 [b] :: .evaluated cw'' rw'' :: .wrote 9 (alarmBytes al) :: .evaluated cw' rw' :: .wrote 1 [v] ::
        .evaluated cw rw :: .didRead 1 [c2] :: .began (.setAlarm al ie) :: past) = none := by
  rw [hazardOf_ended_of_setAlarm rfl rfl]
  exact if_pos (beq_of_eq hie)

end Hazards

/-! ## The run -/

section SetAlarm

variable {p : Peer} {s : State} {rest : List ControllerAction} {past : List BusEvent} {al : AlarmTime} {ie : Bool}

/-- Two actions of `setAlarm` pack the alarm fields and write the alarm block, AIE having been written 0. -/
theorem OnBus.writeAlarm {c2 : Byte} (h : OnBus p s
      (.ex 0x6#4 al.mask [.lit al.minutes, .lit al.hours, .lit al.day, .lit al.weekday] ::
        .wr 9 [.result 0 0, .result 0 1, .result 0 2, .result 0 3] :: rest) (.wrote 1 [c2] :: past))
    (hwf : Memory.wf s.registers = true) (hop : currentOp past = some (.setAlarm al ie)) (hoff : aieBit c2 = false) :
    ∃ t cw rw, runsTo 2 s t ∧
      OnBus p t rest (.wrote 9 (alarmBytes al) :: .evaluated cw rw :: .wrote 1 [c2] :: past) ∧ opField cw = 0x6#4 ∧
      Memory.wf t.registers = true ∧
      (∀ k b, (alarmBytes al)[k]? = some b → ∃ draw, registerByte t (9 + k) = landedByte p (9 + k) b draw) ∧
      ∀ a, a < 9 ∨ 13 ≤ a → registerByte t a = registerByte s a := by
  obtain ⟨t₁, hs₁, h₁, hr₁⟩ := h.ex rfl rfl (hazardOf_evaluated_of_no_control _ _ _ (by decide) rfl)
    (fun u => by rw [decode_issuedWord]; exact exec_alarmPack ..)
  obtain ⟨t₂, hs₂, h₂, hwf₂, hland, hframe⟩ := h₁.wr (bs := alarmBytes al) (hr₁ ▸ hwf)
    (any_operandErrored_latest (resultStatus_packResult ..) [0, 1, 2, 3])
    (by
      simp only [operandBytes, operandByte_latest, Nat.reduceLT, resultLane0_packResult, resultLane1_packResult,
        resultLane2_packResult, resultLane3_packResult]
      rfl)
    (by simp [alarmBytes]) (hazardOf_wrote_alarmBlock hop hoff _ _)
  exact ⟨t₂, _, _, runsTo_succ hs₁ (runsTo_succ hs₂ (runsTo_zero _)), h₂, opField_issuedWord .., hwf₂, hland,
    fun a ha => (hframe a ha).trans (registerByte_congr hr₁ a)⟩

/-- `setAlarm` runs free of faults: the alarm block takes the packed bytes, control2 the byte with AIE written 0 and
then as requested, and no other register is touched (R236). -/
theorem OnBus.setAlarm (h : OnBus p s (hostOpActions (.setAlarm al ie) ++ rest) past)
    (hwf : Memory.wf s.registers = true) (hop : currentOp past = none) :
    ∃ t past', runsTo 9 s t ∧ OnBus p t rest past' ∧ currentOp past' = none ∧ Memory.wf t.registers = true ∧
      (∀ k b, (alarmBytes al)[k]? = some b → ∃ draw, registerByte t (9 + k) = landedByte p (9 + k) b draw) ∧
      (∃ draw, registerByte t 1 = landedByte p 1 (aieWritten (aieWritten (registerByte s 1) false) ie) draw) ∧
      ∀ a, a = 0 ∨ (2 ≤ a ∧ a ≤ 8) ∨ 13 ≤ a → registerByte t a = registerByte s a := by
  obtain ⟨t₁, hs₁, h₁, hr₁⟩ := h.start hop
  obtain ⟨t₂, hs₂, h₂, hwf₂, -, hframe₂⟩ := h₁.rewriteControl2 (hr₁ ▸ hwf) (hazardOf_first_aie _ _)
    (fun u => by rw [decode_exAie, exec_c2AieWr]) (fun _ _ => hazardOf_wrote_control2_in_setAlarm rfl _)
  obtain ⟨t₃, cw, rw₃, hs₃, h₃, hcw, hwf₃, hland₃, hframe₃⟩ := h₂.writeAlarm hwf₂ rfl (aieBit_aieWritten _ false)
  have hlane := resultLane0_packResult statusOk false { r0 := aieWritten (registerByte t₁ 1) false }
  obtain ⟨t₄, hs₄, h₄, hwf₄, ⟨draw, hland₄⟩, hframe₄⟩ := h₃.exWr (a := 1) hwf₃
    (by simp [operandErrored, sinceBegan, resultsOf, resultStatus_packResult]) (congrArg (fun b => some [b]) hlane)
    (hazardOf_final_aie _ (opField_issuedWord ..) (operandLane0_issuedWord ..) hlane (by rw [hcw]; decide))
    (fun u => by rw [decode_exAie, exec_c2AieWr]) (by decide) (fun _ => hazardOf_wrote_control2_in_setAlarm rfl _)
  obtain ⟨t₅, hs₅, h₅, hr₅, -⟩ := h₄.finish rfl (hazardOf_ended_of_alarm_restored (aieBit_aieWritten _ ie) ..) rfl
  refine ⟨t₅, _, runsTo_succ hs₁ (runsTo_add hs₂ (runsTo_add hs₃ (runsTo_add hs₄ (runsTo_succ hs₅ (runsTo_zero _))))),
    h₅, rfl, hr₅ ▸ hwf₄, fun k b hk => ?_, ⟨draw, ?_⟩, fun a ha => ?_⟩
  · obtain ⟨draw', hat⟩ := hland₃ k b hk
    exact ⟨draw', by rw [registerByte_congr hr₅, hframe₄ _ (by omega), hat]⟩
  · rw [registerByte_congr hr₅, hland₄, registerByte_congr hr₁]
  · rw [registerByte_congr hr₅, hframe₄ a (by omega), hframe₃ a (by omega), hframe₂ a (by omega),
      registerByte_congr hr₁]

end SetAlarm

/-- The second C2_AIE_WR writes the bit the first one cleared, and no other bit. -/
theorem getLsbD_aieWritten_twice (c2 : Byte) (ie : Bool) {k : Nat} (hk : k < 8) :
    (aieWritten (aieWritten c2 false) ie).getLsbD k = if k = 1 then ie else c2.getLsbD k := by
  rw [getLsbD_aieWritten _ _ hk]
  split
  · rfl
  · next hne => rw [getLsbD_aieWritten _ _ hk, if_neg hne]

/-- Settles O56: the simulated store holds each byte of the run as it was written. -/
theorem setAlarmWritesTheAlarmBlock : Obligations.SetAlarmWritesTheAlarmBlock := by
  intro s al ie rest hp hb hwf hop hag
  have h : OnBus .simulatedStore s _ s.trace := ⟨hp, hb, hag, rfl⟩
  obtain ⟨t, _, hrun, ht, -, -, hland, ⟨_, hc2⟩, hframe⟩ := h.setAlarm hwf hop
  have hheld : ∀ k b, (alarmBytes al)[k]? = some b → registerByte t (9 + k) = b := fun k b hk => by
    obtain ⟨_, hat⟩ := hland k b hk
    exact hat
  refine ⟨t, hrun, ht.agenda, hheld 0 _ rfl, hheld 1 _ rfl, hheld 2 _ rfl, hheld 3 _ rfl, fun k hk => ?_, hframe⟩
  rw [hc2]
  exact getLsbD_aieWritten_twice _ ie hk

end Sys2Proof.Proofs
end

section
/-! PROOFS. The host operation `setTimer` as a run (spec/70_reset_and_hazards.md R238, R244), and two of them one after
the other (R252). -/

namespace Sys2Proof.Proofs

open Sys2Proof Sys2Proof.Machine Sys2Proof.Safety Sys2Proof.Laws

theorem decode_exTctlPack (src : BitVec 2) (en : Bool) :
    decode (issuedWord 0xB#4 (codedFlags src en) []) = .tctlPack en src := by
  rw [decode_issuedWord]
  revert en src
  decide

theorem decode_exTmrCfg (c2 : Byte) (rep ie : Bool) :
    decode (issuedWord 0xA#4 (flagsOf false false rep ie) [c2]) = .c2TmrCfg c2 rep ie := by
  rw [decode_issuedWord]
  cases rep <;> cases ie <;> rfl

/-- The writes of `setTimer` before it enables the timer, newest first (R238). -/
def timerSetupWrites (c2 counter : Byte) : List (Nat × Byte) := [(0x0F, counter), (0x01, c2), (0x0E, 0x00#8)]

section SetTimer

variable {p : Peer} {s : State} {rest : List ControllerAction} {past : List BusEvent} {c : TimerConfig}

theorem writesOf_sinceBegan_evaluated (cw rw : Word) (past : List BusEvent) :
    writesOf (sinceBegan (.evaluated cw rw :: past)) = writesOf (sinceBegan past) := rfl

theorem writesOf_sinceBegan_wrote (a : Nat) (b : Byte) (past : List BusEvent) :
    writesOf (sinceBegan (.wrote a [b] :: past)) = (a, b) :: writesOf (sinceBegan past) := rfl

/-- A single write of `setTimer` outside the time block is held to the timer order alone. -/
theorem hazardOf_wrote_in_setTimer {a : Nat} {b : Byte} (ha : inTimeBlock a = false)
    (hop : currentOp past = some (.setTimer c))
    (horder : timerInOrder (a, b) (writesOf (sinceBegan past)) = true) : hazardOf (.wrote a [b]) past = none := by
  simp [hazardOf, writeHazard, inStopBracket_of_not_timeBlock ha, hop, byteWrites, eachWrite, horder]

/-- Up to the counter, `setTimer` runs free of faults: the timer is disabled, control2 takes the timer's bits, the
counter is written, and no other register is touched. -/
theorem OnBus.setupTimer
    (h : OnBus p s (.start (.setTimer c) :: (setTimerBody { c with enabled := false } ++ rest)) past)
    (hwf : Memory.wf s.registers = true) (hop : currentOp past = none) :
    ∃ t past', runsTo 8 s t ∧ OnBus p t rest past' ∧ currentOp past' = some (.setTimer c) ∧
      writesOf (sinceBegan past') =
        timerSetupWrites (timerC2 (registerByte s 1) c.repeatMode c.interruptEnable) c.counter ∧
      Memory.wf t.registers = true ∧ registerByte t 0x0E = 0x00#8 ∧ registerByte t 0x0F = c.counter ∧
      (∃ draw, registerByte t 1 =
        landedByte p 1 (timerC2 (registerByte s 1) c.repeatMode c.interruptEnable) draw) ∧
      ∀ a, a ≠ 0x01 → a ≠ 0x0E → a ≠ 0x0F → registerByte t a = registerByte s a := by
  obtain ⟨t₁, hs₁, h₁, hr₁⟩ := h.start hop
  obtain ⟨t₂, hs₂, h₂, hwf₂, ⟨_, hland₂⟩, hframe₂⟩ := h₁.exWr (a := 0x0E) (v := 0x00#8) (hr₁ ▸ hwf) rfl rfl
    (hazardOf_evaluated_of_no_control _ _ _ (by decide) rfl)
    (fun u => by rw [decode_exTctlPack]; exact exec_tctlPack ..) (by decide) (fun _ => hazardOf_wrote_in_setTimer rfl rfl rfl)
  have hc2 : registerByte t₂ 1 = registerByte s 1 := (hframe₂ 1 (by decide)).trans (registerByte_congr hr₁ 1)
  obtain ⟨t₃, hs₃, h₃, hwf₃, ⟨draw, hland₃⟩, hframe₃⟩ := h₂.rewriteControl2 hwf₂
    (hazardOf_evaluated_of_just_read _ _ (by decide) (by decide) rfl rfl)
    (fun u => by rw [decode_exTmrCfg, exec_c2TmrCfg]) (fun _ _ => hazardOf_wrote_in_setTimer rfl rfl rfl)
  obtain ⟨t₄, hs₄, h₄, hwf₄, ⟨_, hland₄⟩, hframe₄⟩ := h₃.exWr (a := 0x0F) hwf₃ rfl rfl
    (hazardOf_evaluated_of_no_control _ _ _ (by decide) rfl)
    (fun u => by rw [decode_issuedWord]; exact exec_tcntPack ..) (by decide) (fun _ => hazardOf_wrote_in_setTimer rfl rfl rfl)
  refine ⟨t₄, _, runsTo_succ hs₁ (runsTo_add hs₂ (runsTo_add hs₃ hs₄)), h₄, rfl, hc2 ▸ rfl, hwf₄, ?_, ?_, ⟨draw, ?_⟩,
    fun a h1 hE hF => ?_⟩
  · rw [hframe₄ _ (by decide), hframe₃ _ (by decide), hland₂, landedByte_valid _ _ rfl (by decide) (by decide)]
  · rw [hland₄, landedByte_valid _ _ rfl (by decide) (by decide)]
    rfl
  · rw [hframe₄ _ (by decide), hland₃, hc2]
  · rw [hframe₄ a hF, hframe₃ a h1, hframe₂ a hE, registerByte_congr hr₁]

/-- The enabling write comes last, after control2 and the counter (R244). -/
theorem timerInOrder_enabling (c2 counter ctl : Byte) :
    timerInOrder (0x0E, ctl) (timerSetupWrites c2 counter) = true := by
  rw [timerInOrder_iff _ (by simp [timerSetupWrites])]
  refine ⟨fun v hv => ?_, fun _ _ => ⟨⟨c2, by simp [timerSetupWrites]⟩, ⟨counter, by simp [timerSetupWrites]⟩⟩⟩
  obtain rfl : v = 0x00#8 := by simpa [timerSetupWrites] using hv
  rfl

/-- `setTimer` runs free of faults: the counter and timer-control hold what was asked for, with either peer, control2
takes the timer's bits, and no other register is touched (R238). -/
theorem OnBus.setTimer (h : OnBus p s (hostOpActions (.setTimer c) ++ rest) past)
    (hwf : Memory.wf s.registers = true) (hop : currentOp past = none) :
    ∃ t past', runsTo (hostOpActions (.setTimer c)).length s t ∧ OnBus p t rest past' ∧ currentOp past' = none ∧
      Memory.wf t.registers = true ∧ registerByte t 0x0E = timerCtl c.enabled (clockSourceCode c.clockSource) ∧
      registerByte t 0x0F = c.counter ∧
      (∃ draw, registerByte t 1 =
        landedByte p 1 (timerC2 (registerByte s 1) c.repeatMode c.interruptEnable) draw) ∧
      ∀ a, a ≠ 0x01 → a ≠ 0x0E → a ≠ 0x0F → registerByte t a = registerByte s a := by
  obtain ⟨enabled, rep, src, counter, ie⟩ := c
  cases enabled with
  | false =>
    obtain ⟨t₁, past₁, hs₁, h₁, hop₁, hwrites, hwf₁, hctl, hcnt, ⟨draw, hc2⟩, hframe⟩ :=
      OnBus.setupTimer (c := ⟨false, rep, src, counter, ie⟩) (rest := .finish :: rest) h hwf hop
    obtain ⟨t₂, hs₂, h₂, hr₂, -⟩ := h₁.finish hop₁
      (hazardOf_ended_of_released hop₁ (by simp) (by rw [hwrites]; rfl)) rfl
    refine ⟨t₂, _, runsTo_add hs₁ (runsTo_succ hs₂ (runsTo_zero _)), h₂, rfl, hr₂ ▸ hwf₁, ?_, ?_, ⟨draw, ?_⟩,
      fun a h1 hE hF => ?_⟩
    · exact (registerByte_congr hr₂ _).trans hctl
    · exact (registerByte_congr hr₂ _).trans hcnt
    · exact (registerByte_congr hr₂ _).trans hc2
    · exact (registerByte_congr hr₂ _).trans (hframe a h1 hE hF)
  | true =>
    obtain ⟨t₁, past₁, hs₁, h₁, hop₁, hwrites, hwf₁, -, hcnt, ⟨draw, hc2⟩, hframe⟩ :=
      OnBus.setupTimer (c := ⟨true, rep, src, counter, ie⟩)
        (rest := .ex 0xB#4 (codedFlags (clockSourceCode src) true) [] :: .wr 0x0E [.result 0 0] :: .finish :: rest)
        h hwf hop
    obtain ⟨t₂, hs₂, h₂, hwf₂, ⟨_, hland₂⟩, hframe₂⟩ := h₁.exWr (a := 0x0E) hwf₁ rfl rfl
      (hazardOf_evaluated_of_no_control _ _ _ (by decide) rfl) (fun u => by rw [decode_exTctlPack, exec_tctlPack])
      (by decide) (fun _ => hazardOf_wrote_in_setTimer rfl hop₁ (by
        rw [writesOf_sinceBegan_evaluated, hwrites]; exact timerInOrder_enabling ..))
    obtain ⟨t₃, hs₃, h₃, hr₃, -⟩ := h₂.finish hop₁
      (hazardOf_ended_of_released hop₁ (by simp) (by
        rw [writesOf_sinceBegan_wrote, writesOf_sinceBegan_evaluated, hwrites]; rfl)) rfl
    have hrun : runsTo (8 + (2 + 1)) s t₃ := runsTo_add hs₁ (runsTo_add hs₂ (runsTo_succ hs₃ (runsTo_zero _)))
    refine ⟨t₃, _, hrun, h₃, rfl, hr₃ ▸ hwf₂, ?_, ?_,
      ⟨draw, ?_⟩, fun a h1 hE hF => ?_⟩
    · rw [registerByte_congr hr₃, hland₂, landedByte_valid _ _ rfl (by decide) (by decide)]
    · rw [registerByte_congr hr₃, hframe₂ _ (by decide), hcnt]
    · rw [registerByte_congr hr₃, hframe₂ _ (by decide), hc2]
    · rw [registerByte_congr hr₃, hframe₂ a hE, hframe a h1 hE hF]

end SetTimer

/-- Settles O57: the second call leaves its own counter and timer-control, whatever the first one left. -/
theorem timerRestartSafety : Obligations.TimerRestartSafety := by
  intro s c c' rest hb hwf hop hag
  rw [List.append_assoc] at hag
  have h : OnBus s.peer s _ s.trace := ⟨rfl, hb, hag, rfl⟩
  obtain ⟨t, past, hrun, ht, hopt, hwft, -⟩ := h.setTimer hwf hop
  obtain ⟨u, _, hrun', hu, -, -, hctl, hcnt, -⟩ := ht.setTimer hwft hopt
  refine ⟨u, ?_, hu.agenda, hcnt, hctl, by rw [hctl, timerEnableBit_timerCtl]⟩
  rw [List.length_append]
  exact runsTo_add hrun hrun'

end Sys2Proof.Proofs
end

section
/-! PROOFS. Initialization as a run of its four host operations (spec/70_reset_and_hazards.md R241). -/

namespace Sys2Proof.Proofs

open Sys2Proof Sys2Proof.Machine Sys2Proof.Safety Sys2Proof.Laws

/-! ## TIME_PACK of a valid date and time gives valid encodings -/

theorem bcdBetween_enc {lo hi : Nat} {v : Byte} (hv : v.toNat < 100) (hlo : lo ≤ v.toNat / 10 * 16 + v.toNat % 10)
    (hhi : v.toNat / 10 * 16 + v.toNat % 10 ≤ hi) : bcdBetween lo hi (enc v) = true := by
  have henc : (enc v).toNat = v.toNat / 10 * 16 + v.toNat % 10 := by rw [toNat_enc]; omega
  simp only [bcdBetween, isBcd, henc, Bool.and_eq_true, decide_eq_true_eq]
  omega

theorem isBcd_enc {v : Byte} (hv : v.toNat < 100) : isBcd (enc v) = true := by
  rw [isBcd, toNat_enc, Bool.and_eq_true, decide_eq_true_eq, decide_eq_true_eq]
  omega

theorem isBcd_yearByte {year : Byte} (h : year.toNat < 200) : isBcd (yearByte year) = true := by
  by_cases hcentury : 100 ≤ year.toNat
  · rw [yearByte_of_century hcentury]
    exact isBcd_enc (by bv_omega)
  · rw [yearByte_of_lt (by omega)]
    exact isBcd_enc (by omega)

theorem enc_and_low7 {v : Byte} (h : v.toNat < 80) : enc v &&& 0x7F#8 = enc v := by
  apply BitVec.eq_of_toNat_eq
  rw [toNat_and_low7, toNat_enc]
  omega

/-- The mask takes the century flag away and leaves the month. -/
theorem monthByte_and_low7 {month : Byte} (year : Byte) (h : month.toNat < 80) :
    monthByte month year &&& 0x7F#8 = enc month := by
  have hflag : (if hasCentury year then 0x80#8 else 0x00#8) &&& 0x7F#8 = 0x00#8 := by cases hasCentury year <;> rfl
  rw [monthByte, BitVec.and_or_distrib_right, hflag, enc_and_low7 h]
  exact BitVec.or_zero

/-- Each byte of a valid date and time is a valid encoding of its register's field (R27 to R30). -/
theorem validRegisterByte_timeBytes {d : DateTime} (hd : validDateTime d = true) {k : Nat} {b : Byte}
    (hk : (timeBytes d)[k]? = some b) : validRegisterByte (2 + k) b = true := by
  simp only [validDateTime, Bool.and_eq_true, decide_eq_true_eq] at hd
  obtain ⟨⟨⟨⟨⟨⟨⟨⟨hsec, hmin⟩, hhour⟩, hday1⟩, hday⟩, hwday⟩, hmonth1⟩, hmonth⟩, hyear⟩ := hd
  match k with
  | 0 | 1 | 2 | 3 | 4 => cases hk; exact bcdBetween_enc (by omega) (by omega) (by omega)
  | 5 =>
    cases hk
    rw [validRegisterByte, monthByte_and_low7 _ (by omega)]
    exact bcdBetween_enc (by omega) (by omega) (by omega)
  | 6 => cases hk; exact isBcd_yearByte (by omega)
  | k + 7 => cases hk

/-! ## The bits a peer holds as written -/

/-- Bits that are none of the chip's flags are held as they were written, with either peer (log entry 7). -/
theorem landedByte_and_of_no_flag {a : Nat} {b mask : Byte} (p : Peer) (draw : Byte)
    (hb : validRegisterByte a b = true) (hmask : chipFlagBits a &&& mask = 0#8) :
    landedByte p a b draw &&& mask = b &&& mask := by
  cases p with
  | simulatedStore => rfl
  | realChip =>
    apply BitVec.eq_of_getLsbD_eq
    intro k hk
    have hbit : ((chipFlagBits a).getLsbD k && mask.getLsbD k) = false := by
      rw [← BitVec.getLsbD_and, hmask, BitVec.getLsbD_zero]
    rw [BitVec.getLsbD_and, BitVec.getLsbD_and]
    cases hm : mask.getLsbD k with
    | false => rw [Bool.and_false, Bool.and_false]
    | true =>
      rw [hm, Bool.and_true] at hbit
      rw [landedByte, getLsbD_realChipByte draw hb hk hbit]

theorem timerC2_off (c2 : Byte) : timerC2 c2 false false = c2 &&& 0xEA#8 := by
  simp [timerC2]

/-- `setAlarm` with AIE off and then `setTimer` with the timer off keep control2 bits 7:5 and clear every other bit but
AF and TF, which the real chip draws (R241, U6). -/
theorem control2_after_alarm_and_timer_off (p : Peer) (c2 draw draw' : Byte) :
    landedByte p 1 (timerC2 (landedByte p 1 (aieWritten (aieWritten c2 false) false) draw) false false) draw' &&&
      0xF3#8 = c2 &&& 0xE0#8 := by
  have halarm : landedByte p 1 (aieWritten (aieWritten c2 false) false) draw &&& 0xF3#8 =
      aieWritten (aieWritten c2 false) false &&& 0xF3#8 := landedByte_and_of_no_flag p draw rfl rfl
  rw [landedByte_and_of_no_flag p draw' rfl rfl, timerC2_off, BitVec.and_assoc, BitVec.and_comm 0xEA#8,
    ← BitVec.and_assoc, halarm, aieWritten_idem, aieWritten, if_neg (by decide), BitVec.and_assoc, BitVec.and_assoc]
  rfl

/-! ## The run -/

theorem initializeActions_append (supplied : Option DateTime) (rest : List ControllerAction) :
    initializeActions supplied ++ rest =
      hostOpActions (.setDateTime (supplied.getD Config.defaultDateTime)) ++
        (hostOpActions (.setAlarm alarmsOff false) ++
          (hostOpActions (.setClkoutFrequency ⟨Config.defaultClkoutEn, Config.defaultClkoutFreq⟩) ++
            (hostOpActions (.setTimer timerOff) ++ rest))) := by
  simp only [initializeActions, initializeOps, List.flatMap_cons, List.flatMap_nil, List.append_assoc, List.nil_append]

/-- Initialization runs free of faults, and every register it writes holds what its host operation left there. -/
theorem OnBus.initialization {p : Peer} {s : State} {rest : List ControllerAction} {past : List BusEvent}
    {supplied : Option DateTime} (h : OnBus p s (initializeActions supplied ++ rest) past)
    (hwf : Memory.wf s.registers = true) (hop : currentOp past = none) :
    ∃ t past', runsTo 32 s t ∧ OnBus p t rest past' ∧
      (∀ k b, (timeBytes (supplied.getD Config.defaultDateTime))[k]? = some b →
        ∃ draw, registerByte t (2 + k) = landedByte p (2 + k) b draw) ∧
      (∀ k b, (alarmBytes alarmsOff)[k]? = some b → ∃ draw, registerByte t (9 + k) = landedByte p (9 + k) b draw) ∧
      registerByte t 0x0D = clkoutByte Config.defaultClkoutEn (frequencyCode Config.defaultClkoutFreq) ∧
      registerByte t 0x0E = 0x00#8 ∧ registerByte t 0x0F = 0x00#8 ∧
      registerByte t 0x00 = registerByte s 0x00 &&& 0xDF#8 ∧
      ∃ draw draw', registerByte t 0x01 = landedByte p 1
        (timerC2 (landedByte p 1 (aieWritten (aieWritten (registerByte s 1) false) false) draw) false false) draw' := by
  rw [initializeActions_append] at h
  obtain ⟨t₁, past₁, hs₁, h₁, hop₁, hwf₁, hc1, htime, hframe₁⟩ := h.setDateTime hwf hop
  obtain ⟨t₂, past₂, hs₂, h₂, hop₂, hwf₂, halarm, ⟨draw, hc2⟩, hframe₂⟩ := h₁.setAlarm hwf₁ hop₁
  obtain ⟨t₃, past₃, hs₃, h₃, hop₃, hwf₃, hclkout, hframe₃⟩ := h₂.setClkoutFrequency hwf₂ hop₂
  obtain ⟨t₄, past₄, hs₄, h₄, -, -, hctl, hcnt, ⟨draw', hc2'⟩, hframe₄⟩ := h₃.setTimer hwf₃ hop₃
  refine ⟨t₄, past₄, runsTo_add hs₁ (runsTo_add hs₂ (runsTo_add hs₃ hs₄)), h₄, fun k b hk => ?_, fun k b hk => ?_,
    (hframe₄ _ (by decide) (by decide) (by decide)).trans hclkout, hctl, hcnt, ?_, draw, draw', ?_⟩
  · have hlt : k < 7 := (List.getElem?_eq_some_iff.mp hk).1
    obtain ⟨draw, hat⟩ := htime k b hk
    exact ⟨draw, by rw [hframe₄ _ (by omega) (by omega) (by omega), hframe₃ _ (by omega), hframe₂ _ (by omega), hat]⟩
  · have hlt : k < 4 := (List.getElem?_eq_some_iff.mp hk).1
    obtain ⟨draw, hat⟩ := halarm k b hk
    exact ⟨draw, by rw [hframe₄ _ (by omega) (by omega) (by omega), hframe₃ _ (by omega), hat]⟩
  · rw [hframe₄ _ (by decide) (by decide) (by decide), hframe₃ _ (by decide), hframe₂ _ (by decide), hc1]
  · rw [hc2', hframe₃ _ (by decide), hc2, hframe₁ _ (by decide)]
    rfl

/-! ## What is held of the bytes written -/

section Held

variable {t : State}

/-- The alarm block holds the sentinel after initialization, with either peer: it is a valid encoding (R31). -/
theorem registerByte_of_alarmsOff {p : Peer} (hland : ∀ k b, (alarmBytes alarmsOff)[k]? = some b →
      ∃ draw, registerByte t (9 + k) = landedByte p (9 + k) b draw) {k : Nat} (hk : k < 4) :
    registerByte t (9 + k) = 0x80#8 := by
  have hbyte : (alarmBytes alarmsOff)[k]? = some 0x80#8 ∧ validRegisterByte (9 + k) 0x80#8 = true := by
    interval_cases k <;> exact ⟨rfl, rfl⟩
  obtain ⟨hbyte, hvalid⟩ := hbyte
  obtain ⟨_, hat⟩ := hland k _ hbyte
  rw [hat, landedByte_valid _ _ hvalid (by omega) (by omega)]

variable {d : DateTime}

/-- The store holds the packed date and time as it was written (L3). -/
theorem timeBlock_of_store (hland : ∀ k b, (timeBytes d)[k]? = some b →
      ∃ draw, registerByte t (2 + k) = landedByte .simulatedStore (2 + k) b draw) :
    [registerByte t 2, registerByte t 3, registerByte t 4, registerByte t 5, registerByte t 6, registerByte t 7,
      registerByte t 8] = timeBytes d := by
  have hheld : ∀ k b, (timeBytes d)[k]? = some b → registerByte t (2 + k) = b := fun k b hk => by
    obtain ⟨_, hat⟩ := hland k b hk
    exact hat
  rw [hheld 0 _ rfl, hheld 1 _ rfl, hheld 2 _ rfl, hheld 3 _ rfl, hheld 4 _ rfl, hheld 5 _ rfl, hheld 6 _ rfl,
    timeBytes]

/-- The real chip holds a valid date and time as it was written, but for VL (N11, U1). -/
theorem timeBlock_of_realChip (hd : validDateTime d = true) (hland : ∀ k b, (timeBytes d)[k]? = some b →
      ∃ draw, registerByte t (2 + k) = landedByte .realChip (2 + k) b draw) :
    [registerByte t 2 &&& 0x7F#8, registerByte t 3, registerByte t 4, registerByte t 5, registerByte t 6,
      registerByte t 7, registerByte t 8] = timeBytes d := by
  have hseconds : registerByte t 2 &&& 0x7F#8 = enc d.seconds := by
    obtain ⟨_, hat⟩ := hland 0 _ rfl
    have hlt : d.seconds.toNat < 80 := by
      simp only [validDateTime, Bool.and_eq_true, decide_eq_true_eq] at hd
      omega
    rw [hat, landedByte_and_of_no_flag _ _ (validRegisterByte_timeBytes (k := 0) hd rfl) rfl, enc_and_low7 hlt]
  have hheld : ∀ k b, (timeBytes d)[k]? = some b → k ≠ 0 → registerByte t (2 + k) = b := fun k b hk hne => by
    obtain ⟨_, hat⟩ := hland k b hk
    rw [hat, landedByte_valid _ _ (validRegisterByte_timeBytes hd hk) (by omega) (by omega)]
  rw [hseconds, hheld 1 _ rfl (by decide), hheld 2 _ rfl (by decide), hheld 3 _ rfl (by decide),
    hheld 4 _ rfl (by decide), hheld 5 _ rfl (by decide), hheld 6 _ rfl (by decide), timeBytes]

end Held

/-- Settles O60: the bytes the run leaves, as the store holds them and as the real chip does. -/
theorem initializationLeavesTheFactoryState : Obligations.InitializationLeavesTheFactoryState := by
  intro s supplied rest hb hwf hop hag
  have h : OnBus s.peer s _ s.trace := ⟨rfl, hb, hag, rfl⟩
  obtain ⟨t, _, hrun, ht, htime, halarm, hclkout, hctl, hcnt, hc1, draw, draw', hc2⟩ := h.initialization hwf hop
  have hoff : ∀ k, k < 4 → registerByte t (9 + k) = 0x80#8 := fun _ => registerByte_of_alarmsOff halarm
  refine ⟨t, _, hrun, ht.agenda, rfl, ?_, hclkout, hctl, hcnt, hc1, ?_, fun hp => ⟨?_, ?_⟩, fun hp hd => ?_⟩
  · rw [hoff 0 (by decide), hoff 1 (by decide), hoff 2 (by decide), hoff 3 (by decide)]
  · rw [hc2, control2_after_alarm_and_timer_off]
  · rw [hc2, hp, landedByte, landedByte, aieWritten_idem, timerC2_off, aieWritten, if_neg (by decide), BitVec.and_assoc]
    rfl
  · exact timeBlock_of_store (hp ▸ htime)
  · exact timeBlock_of_realChip hd (hp ▸ htime)

end Sys2Proof.Proofs
end
